-- ==== Sys2Proof/Word.lean ====
section
/-! DEFINITION. Bits and bit sequences, the only data of the core (spec/00_scope.md R10, R11). -/

namespace Sys2Proof

/-- A bit, a value in {0, 1}: `false` is 0 and `true` is 1 (00_scope.md R10). -/
abbrev Bit := Bool

/-- A bit sequence `s[0], s[1], …`, element 0 first; its length is `List.length` (00_scope.md R11). -/
abbrev BitSeq := List Bool

/-- `zeros(n)`, the sequence of n zero bits (00_scope.md R11). -/
def zeros (n : Nat) : BitSeq := List.replicate n false

end Sys2Proof
end

