-- ==== Sys2Proof/Config.lean ====
section
/-! DEFINITION. What an instance of the core fixes (the elaboration parameters of spec/00_scope.md R6
and their constraints R7) and what the host configures (the configuration entry of spec/10_state.md R24).
The spec leaves no value free (R3), so there is no opaque constant here. -/

namespace Sys2Proof

/-- The elaboration parameters, "fixed when an instance of the core is built" and "arguments of the
model" (00_scope.md R6). -/
structure Params where
  /-- `KEY_LEN`, number of key bits. -/
  keyLen : Nat
  /-- `FRAME_LEN`, number of frame/IV bits. -/
  frameLen : Nat
  /-- `WARMUP_N`, number of discarded warm-up steps. -/
  warmupN : Nat
  /-- `LMAX`, largest register length an instance can hold. -/
  lmax : Nat
  /-- `NW`, width of the NEXTN count and of the counters `cnt`, `nrem`. -/
  nw : Nat
  /-- `CLW`, width of a combiner length field. -/
  clw : Nat
  deriving DecidableEq, Repr

namespace Params

/-- The defaults of 00_scope.md R6. -/
def reference : Params :=
  { keyLen := 64, frameLen := 22, warmupN := 100, lmax := 32, nw := 16, clw := 8 }

/-- The constraints of 00_scope.md R7. "An instance that breaks one of them does not exist". -/
def ok (P : Params) : Bool :=
  decide (1 ≤ P.lmax) && decide (P.keyLen < 2 ^ P.nw) && decide (P.frameLen < 2 ^ P.nw) &&
    decide (P.warmupN < 2 ^ P.nw) && decide (1 ≤ P.nw) && decide (1 ≤ P.clw)

/-- `ceil(log2 n)` for `n ≥ 1`, the function the derived widths of 00_scope.md R6 use. -/
def ceilLog2 (n : Nat) : Nat := if n ≤ 1 then 0 else Nat.log2 (n - 1) + 1

/-- `LENW = ceil(log2(LMAX+1))` (00_scope.md R6). -/
def lenw (P : Params) : Nat := ceilLog2 (P.lmax + 1)

/-- `IDXW = max(1, ceil(log2(LMAX)))` (00_scope.md R6, 90_conflicts.md C10). -/
def idxw (P : Params) : Nat := max 1 (ceilLog2 P.lmax)

/-- `CEW = LENW + 2*IDXW + LMAX`, the width of one configuration entry (00_scope.md R6, 30_encoding.md R66). -/
def cew (P : Params) : Nat := P.lenw + 2 * P.idxw + P.lmax

/-- `CMAX = 2^CLW - 1`, the largest combiner operand length (00_scope.md R6). -/
def cmax (P : Params) : Nat := 2 ^ P.clw - 1

end Params

/-- One configuration entry (10_state.md R24). `taps` is the mask: index i is in the feedback-tap set
when `taps[i]` is 1. -/
structure Entry where
  len  : Nat
  clk  : Nat
  out  : Nat
  taps : BitSeq
  deriving DecidableEq, Repr

/-- A configuration: one entry for each of the three registers (10_state.md R24; `N_REG` = 3 in 00_scope.md R6). -/
structure Cfg where
  e1 : Entry
  e2 : Entry
  e3 : Entry
  deriving DecidableEq, Repr

end Sys2Proof
end

