-- ==== Sys2Proof/Syntax.lean ====
section
/-! DEFINITION. The commands (spec/30_encoding.md R60, R62, R63; one constructor per row of
spec/opcode_table.json) and the ports they are presented on (R70). -/

namespace Sys2Proof

/-- A command with its operands. Sequences are element 0 first; integers are unsigned (30_encoding.md R65).
The three X-format commands carry all four operand ports, as 44_host_commands.md R155 writes them. -/
inductive Instr where
  /-- STATUS, 44_host_commands.md R159. -/
  | status
  /-- INIT, 44_host_commands.md R151. -/
  | init (c : Cfg)
  /-- START, 44_host_commands.md R152. -/
  | start (key frame : BitSeq)
  /-- NEXT, 44_host_commands.md R153. -/
  | next
  /-- NEXTN, 44_host_commands.md R154. -/
  | nextn (n : Nat)
  /-- COMBINE, 44_host_commands.md R155. -/
  | combine (tlen klen : Nat) (text ks : BitSeq)
  /-- ENCRYPT, 44_host_commands.md R156. -/
  | encrypt (tlen klen : Nat) (text ks : BitSeq)
  /-- DECRYPT, 44_host_commands.md R157. -/
  | decrypt (tlen klen : Nat) (text ks : BitSeq)
  /-- SNAP, 44_host_commands.md R160. -/
  | snap
  /-- Reserved opcode 0x9, 30_encoding.md R63. -/
  | reserved9
  /-- Reserved opcode 0xA, 30_encoding.md R63. -/
  | reservedA
  /-- Reserved opcode 0xB, 30_encoding.md R63. -/
  | reservedB
  /-- Reserved opcode 0xC, 30_encoding.md R63. -/
  | reservedC
  /-- Reserved opcode 0xD, 30_encoding.md R63. -/
  | reservedD
  /-- Reserved opcode 0xE, 30_encoding.md R63. -/
  | reservedE
  /-- Reserved opcode 0xF, 30_encoding.md R63. -/
  | reservedF
  deriving DecidableEq, Repr

/-- The formats of 30_encoding.md R60; `reserved` is the "—" of R62, which samples no operand port. -/
inductive Format where
  | Z | C | K | N | X | reserved
  deriving DecidableEq, Repr

/-- The values on the command ports when the host presents a command (30_encoding.md R70). A vector is
given by its unsigned value (00_scope.md R12); a port has only its width's wires, so bits of the number
above the width do not exist and the decoder never reads them. -/
structure Ports where
  cmdOp   : BitVec 4
  cfgIn   : Nat
  keyIn   : Nat
  frameIn : Nat
  nIn     : Nat
  tlenIn  : Nat
  klenIn  : Nat
  textIn  : Nat
  ksIn    : Nat
  deriving DecidableEq, Repr

end Sys2Proof
end

