-- ==== Sys2Proof/WellFormed.lean ====
section
/-! DEFINITION. Which commands the ports of an instance can carry: every operand has exactly the width
of its port (spec/30_encoding.md R60, R66, R70). This is a check on syntax, not the machine's own
well-formedness of a configuration (10_state.md R25), which INIT makes. -/

namespace Sys2Proof

/-- An entry fits its CEW bits: "every one of the 2^CEW values is a legal encoding" (30_encoding.md R66). -/
def Entry.fits (P : Params) (e : Entry) : Bool :=
  decide (e.len < 2 ^ P.lenw) && decide (e.clk < 2 ^ P.idxw) && decide (e.out < 2 ^ P.idxw) &&
    decide (e.taps.length = P.lmax)

/-- The three entries fit `cfg_in` (30_encoding.md R67). -/
def Cfg.fits (P : Params) (c : Cfg) : Bool := c.e1.fits P && c.e2.fits P && c.e3.fits P

/-- The operands of the X format fit their ports (30_encoding.md R60, R70). -/
def fitsX (P : Params) (tlen klen : Nat) (text ks : BitSeq) : Bool :=
  decide (tlen < 2 ^ P.clw) && decide (klen < 2 ^ P.clw) &&
    decide (text.length = P.cmax) && decide (ks.length = P.cmax)

/-- Every operand of the command has the width of its port. -/
def Instr.wf (P : Params) : Instr → Bool
  | .status => true
  | .init c => c.fits P
  | .start key frame => decide (key.length = P.keyLen) && decide (frame.length = P.frameLen)
  | .next => true
  | .nextn n => decide (n < 2 ^ P.nw)
  | .combine tlen klen text ks => fitsX P tlen klen text ks
  | .encrypt tlen klen text ks => fitsX P tlen klen text ks
  | .decrypt tlen klen text ks => fitsX P tlen klen text ks
  | .snap => true
  | .reserved9 => true
  | .reservedA => true
  | .reservedB => true
  | .reservedC => true
  | .reservedD => true
  | .reservedE => true
  | .reservedF => true

end Sys2Proof
end

