-- ==== Sys2Proof/Decode.lean ====
section
/-! DEFINITION. From port values and from command words to commands, and back (spec/30_encoding.md R60
to R67; 20_memory.md R44). -/

namespace Sys2Proof

/-! ### Vectors and sequences -/

/-- The w-bit vector of value v as a sequence: element i is bit i (20_memory.md R44). -/
def bitsOfNat : Nat → Nat → BitSeq
  | 0, _ => []
  | w + 1, v => (v % 2 == 1) :: bitsOfNat w (v / 2)

/-- The unsigned value of a sequence carried element i on bit i (00_scope.md R12). -/
def natOfBits : BitSeq → Nat
  | [] => 0
  | b :: s => b.toNat + 2 * natOfBits s

/-- The w elements from position lo on: `v[lo+w-1 : lo]` (00_scope.md R12). -/
def slice (v : BitSeq) (lo w : Nat) : BitSeq := (v.drop lo).take w

/-! ### Opcodes and formats -/

/-- The opcode map, 30_encoding.md R62 and R63. -/
def Instr.opcode : Instr → BitVec 4
  | .status => 0x0#4
  | .init _ => 0x1#4
  | .start _ _ => 0x2#4
  | .next => 0x3#4
  | .nextn _ => 0x4#4
  | .combine _ _ _ _ => 0x5#4
  | .encrypt _ _ _ _ => 0x6#4
  | .decrypt _ _ _ _ => 0x7#4
  | .snap => 0x8#4
  | .reserved9 => 0x9#4
  | .reservedA => 0xA#4
  | .reservedB => 0xB#4
  | .reservedC => 0xC#4
  | .reservedD => 0xD#4
  | .reservedE => 0xE#4
  | .reservedF => 0xF#4

/-- The format column of 30_encoding.md R62. -/
def opcodeFormat (op : BitVec 4) : Format :=
  match op.toNat with
  | 0x0 => .Z
  | 0x1 => .C
  | 0x2 => .K
  | 0x3 => .Z
  | 0x4 => .N
  | 0x5 => .X
  | 0x6 => .X
  | 0x7 => .X
  | 0x8 => .Z
  | _ => .reserved

/-- The number of operand-port bits a format samples (30_encoding.md R60). -/
def operandWidth (P : Params) : Format → Nat
  | .Z => 0
  | .C => 3 * P.cew
  | .K => P.keyLen + P.frameLen
  | .N => P.nw
  | .X => 2 * P.clw + 2 * P.cmax
  | .reserved => 0

/-! ### Configuration entries -/

/-- Reading an entry from its CEW bits (30_encoding.md R66). -/
def decodeEntry (P : Params) (v : BitSeq) : Entry :=
  { len  := natOfBits (slice v 0 P.lenw)
    clk  := natOfBits (slice v P.lenw P.idxw)
    out  := natOfBits (slice v (P.lenw + P.idxw) P.idxw)
    taps := slice v (P.lenw + 2 * P.idxw) P.lmax }

/-- Reading a configuration from `cfg_in`: entry of register 1 in the low bits (30_encoding.md R67). -/
def decodeCfg (P : Params) (v : BitSeq) : Cfg :=
  { e1 := decodeEntry P (slice v 0 P.cew)
    e2 := decodeEntry P (slice v P.cew P.cew)
    e3 := decodeEntry P (slice v (2 * P.cew) P.cew) }

/-- The CEW bits of an entry (30_encoding.md R66). -/
def encodeEntry (P : Params) (e : Entry) : BitSeq :=
  bitsOfNat P.lenw e.len ++ bitsOfNat P.idxw e.clk ++ bitsOfNat P.idxw e.out ++ e.taps

/-- The bits of `cfg_in` (30_encoding.md R67). -/
def encodeCfg (P : Params) (c : Cfg) : BitSeq :=
  encodeEntry P c.e1 ++ encodeEntry P c.e2 ++ encodeEntry P c.e3

/-! ### Commands on the ports -/

/-- The four X-format operands as the ports carry them (30_encoding.md R60, R65). -/
def portsX (P : Params) (p : Ports) (mk : Nat → Nat → BitSeq → BitSeq → Instr) : Instr :=
  mk (natOfBits (bitsOfNat P.clw p.tlenIn)) (natOfBits (bitsOfNat P.clw p.klenIn))
    (bitsOfNat P.cmax p.textIn) (bitsOfNat P.cmax p.ksIn)

/-- Decoding a presented command: the opcode selects the command and its format selects the ports that
are sampled; all other ports are ignored (30_encoding.md R60, R61, R62, R63). Total: every opcode value
has a row. -/
def decode (P : Params) (p : Ports) : Instr :=
  match p.cmdOp.toNat with
  | 0x0 => .status
  | 0x1 => .init (decodeCfg P (bitsOfNat (3 * P.cew) p.cfgIn))
  | 0x2 => .start (bitsOfNat P.keyLen p.keyIn) (bitsOfNat P.frameLen p.frameIn)
  | 0x3 => .next
  | 0x4 => .nextn (natOfBits (bitsOfNat P.nw p.nIn))
  | 0x5 => portsX P p .combine
  | 0x6 => portsX P p .encrypt
  | 0x7 => portsX P p .decrypt
  | 0x8 => .snap
  | 0x9 => .reserved9
  | 0xA => .reservedA
  | 0xB => .reservedB
  | 0xC => .reservedC
  | 0xD => .reservedD
  | 0xE => .reservedE
  | _ => .reservedF

/-- The presentation with this opcode and every operand port at 0. -/
def Ports.zero (op : BitVec 4) : Ports :=
  { cmdOp := op, cfgIn := 0, keyIn := 0, frameIn := 0, nIn := 0, tlenIn := 0, klenIn := 0,
    textIn := 0, ksIn := 0 }

/-- The X-format ports of an encoded command (30_encoding.md R60, R65). -/
def encodeX (op : BitVec 4) (tlen klen : Nat) (text ks : BitSeq) : Ports :=
  { Ports.zero op with
    tlenIn := tlen, klenIn := klen, textIn := natOfBits text, ksIn := natOfBits ks }

/-- Encoding a command: its opcode and the values of its format's operand ports (30_encoding.md R60,
R62, R74); the ports the format does not list are 0. -/
def encode (P : Params) (i : Instr) : Ports :=
  match i with
  | .status => Ports.zero i.opcode
  | .init c => { Ports.zero i.opcode with cfgIn := natOfBits (encodeCfg P c) }
  | .start key frame =>
    { Ports.zero i.opcode with keyIn := natOfBits key, frameIn := natOfBits frame }
  | .next => Ports.zero i.opcode
  | .nextn n => { Ports.zero i.opcode with nIn := n }
  | .combine tlen klen text ks => encodeX i.opcode tlen klen text ks
  | .encrypt tlen klen text ks => encodeX i.opcode tlen klen text ks
  | .decrypt tlen klen text ks => encodeX i.opcode tlen klen text ks
  | .snap => Ports.zero i.opcode
  | .reserved9 => Ports.zero i.opcode
  | .reservedA => Ports.zero i.opcode
  | .reservedB => Ports.zero i.opcode
  | .reservedC => Ports.zero i.opcode
  | .reservedD => Ports.zero i.opcode
  | .reservedE => Ports.zero i.opcode
  | .reservedF => Ports.zero i.opcode

/-! ### Commands as words -/

/-- The operand bits of a presentation, in the order 30_encoding.md R60 lists the ports of the format. -/
def Ports.operandBits (P : Params) (p : Ports) : BitSeq :=
  match opcodeFormat p.cmdOp with
  | .Z => []
  | .C => bitsOfNat (3 * P.cew) p.cfgIn
  | .K => bitsOfNat P.keyLen p.keyIn ++ bitsOfNat P.frameLen p.frameIn
  | .N => bitsOfNat P.nw p.nIn
  | .X => bitsOfNat P.clw p.tlenIn ++ bitsOfNat P.clw p.klenIn ++
      bitsOfNat P.cmax p.textIn ++ bitsOfNat P.cmax p.ksIn
  | .reserved => []

/-- A presentation as one bit sequence: "its cmd_op value followed by the values of its format's operand
ports" (30_encoding.md R74). DESIGN CHOICE, unsafe (log entry 4): the operands begin at bit 4 and follow
each other without padding. -/
def Ports.toBits (P : Params) (p : Ports) : BitSeq := bitsOfNat 4 p.cmdOp.toNat ++ p.operandBits P

/-- The presentation a bit sequence stands for, the inverse of `Ports.toBits`; a missing bit is 0. -/
def Ports.ofBits (P : Params) (v : BitSeq) : Ports :=
  let op := BitVec.ofNat 4 (natOfBits (slice v 0 4))
  match opcodeFormat op with
  | .Z => Ports.zero op
  | .C => { Ports.zero op with cfgIn := natOfBits (slice v 4 (3 * P.cew)) }
  | .K =>
    { Ports.zero op with
      keyIn   := natOfBits (slice v 4 P.keyLen)
      frameIn := natOfBits (slice v (4 + P.keyLen) P.frameLen) }
  | .N => { Ports.zero op with nIn := natOfBits (slice v 4 P.nw) }
  | .X =>
    { Ports.zero op with
      tlenIn := natOfBits (slice v 4 P.clw)
      klenIn := natOfBits (slice v (4 + P.clw) P.clw)
      textIn := natOfBits (slice v (4 + 2 * P.clw) P.cmax)
      ksIn   := natOfBits (slice v (4 + 2 * P.clw + P.cmax) P.cmax) }
  | .reserved => Ports.zero op

/-- Why a bit sequence is no encoded command. -/
inductive DecodeError where
  /-- Fewer than the four bits of `cmd_op`. -/
  | noOpcode
  /-- Fewer operand bits than the format's ports have. -/
  | truncatedOperands
  deriving DecidableEq, Repr

/-- The length of an encoded command with this opcode. -/
def commandLength (P : Params) (op : BitVec 4) : Nat := 4 + operandWidth P (opcodeFormat op)

/-- Decoding a stream of encoded commands: the first command and the bits after it. -/
def decodeBits (P : Params) (v : BitSeq) : Except DecodeError (Instr × BitSeq) :=
  let p := Ports.ofBits P v
  if v.length < 4 then .error .noOpcode
  else if v.length < commandLength P p.cmdOp then .error .truncatedOperands
  else .ok (decode P p, v.drop (commandLength P p.cmdOp))

/-- The bits of an encoded command. -/
def encodeBits (P : Params) (i : Instr) : BitSeq := (encode P i).toBits P

/-- The longest encoded command of an instance. -/
def longestCommand (P : Params) : Nat :=
  4 + max (max (3 * P.cew) (P.keyLen + P.frameLen)) (max P.nw (2 * P.clw + 2 * P.cmax))

/-- The bits of an instruction given by its low `nbits` bits: every bit above them is 0. -/
def wordBits (P : Params) (nbits w : Nat) : BitSeq := bitsOfNat (longestCommand P) (w % 2 ^ nbits)

/-- The instruction the decoder of the default instance reads from a word whose bit 0 is the least
significant bit of `cmd_op` (spec/opcode_table.json; log entry 4). -/
def decodeTableWord (nbits w : Nat) : Option Instr :=
  match decodeBits Params.reference (wordBits Params.reference nbits w) with
  | .ok (i, _) => some i
  | .error _ => none

end Sys2Proof
end

