-- ==== Sys2Proof/Machine/State.lean ====
section
/-! DEFINITION. The state of the core (spec/10_state.md R20 to R34), what stands at its ports, and the
state after reset. -/

namespace Sys2Proof.Machine

open Sys2Proof

/-- The sequencer's position (10_state.md R26). -/
inductive Phase where
  | unbuilt | unloaded | loadKey | loadFrame | warmup | ready | running
  deriving DecidableEq, Repr

/-- The status of a response (30_encoding.md R69). -/
inductive Status where
  | ok | errConfig | errLength | errPhase | errOpcode
  deriving DecidableEq, Repr

/-- The payload of a response (30_encoding.md R72). -/
inductive Payload where
  /-- STATUS, INIT, START, and every error. -/
  | none
  /-- NEXT: one keystream bit. -/
  | bit (z : Bit)
  /-- NEXTN: a `BitSeq[n]`. -/
  | keystream (ks : BitSeq)
  /-- COMBINE, ENCRYPT, DECRYPT: the combiner's result. -/
  | text (result : BitSeq)
  /-- SNAP: the three registers. -/
  | snapshot (r1 r2 r3 : BitSeq)
  deriving DecidableEq, Repr

/-- The response record: status, phase after the command, payload (30_encoding.md R72). -/
structure Response where
  status  : Status
  phase   : Phase
  payload : Payload
  deriving DecidableEq, Repr

/-- The three registers, each exactly `LEN[j]` bits, index 0 the output end (10_state.md R21, R22;
00_scope.md R14). -/
structure Regs where
  r1 : BitSeq
  r2 : BitSeq
  r3 : BitSeq
  deriving DecidableEq, Repr

/-- The state of the core, the tuple S of 10_state.md R20. -/
structure CoreState where
  cfg    : Cfg
  regs   : Regs
  phase  : Phase
  cnt    : Nat
  nrem   : Nat
  keyL   : BitSeq
  frameL : BitSeq
  deriving DecidableEq, Repr

/-- What the payload of an owed response will hold (30_encoding.md R72). -/
inductive Reply where
  /-- START: nothing. -/
  | plain
  /-- NEXT: the one bit it produced. -/
  | oneBit
  /-- NEXTN: all bits it produced. -/
  | bits
  deriving DecidableEq, Repr

/-- An accepted command whose response is still owed, and the keystream bits it has delivered so far,
in order (30_encoding.md R71, R73). DESIGN CHOICE, safe (log entry 5). -/
structure InFlight where
  reply : Reply
  sent  : BitSeq
  deriving DecidableEq, Repr

/-- What the host does next (70_reset_and_hazards.md R200; 30_encoding.md R70, R71). DESIGN CHOICE,
safe (log entry 3). -/
inductive Input where
  /-- `rst = 1`. -/
  | reset
  /-- Neither reset nor a command. -/
  | quiet
  /-- `cmd_valid = 1` with these values on the ports. -/
  | command (p : Ports)
  deriving DecidableEq, Repr

/-- The machine: one instance of the core and what stands at its ports. -/
structure State where
  /-- The elaboration parameters of this instance (00_scope.md R6); no step changes them (log entry 1). -/
  params   : Params
  /-- The state of the core (10_state.md R20). -/
  arch     : CoreState
  /-- The response owed for the command in progress, if one is (log entry 5). -/
  inFlight : Option InFlight
  /-- The response the last step presented, if it presented one (log entry 5). -/
  rsp      : Option Response
  /-- What the host does, oldest first (log entry 3). -/
  inputs   : List Input
  deriving DecidableEq, Repr

/-- Nothing stops this machine: the four errors of 60_exceptions.md R180 are responses, "nothing else in
the core can fail", so no constructor (log entry 19). -/
inductive Fault where
  deriving DecidableEq, Repr

/-- Reasons to refuse an instruction. -/
inductive Refusal where
  /-- Raised by `exec` for an instruction without a meaning. Safe. No arm raises it. -/
  | notModelled (mnemonic : String)
  deriving DecidableEq, Repr

/-- The all-zero configuration entry, with the empty tap set as an LMAX-bit mask (10_state.md R34). -/
def zeroEntry (P : Params) : Entry := { len := 0, clk := 0, out := 0, taps := zeros P.lmax }

/-- The state of the core after hardware reset (10_state.md R34). -/
def CoreState.resetOf (P : Params) : CoreState :=
  { cfg    := { e1 := zeroEntry P, e2 := zeroEntry P, e3 := zeroEntry P }
    regs   := { r1 := [], r2 := [], r3 := [] }
    phase  := .unbuilt
    cnt    := 0
    nrem   := 0
    keyL   := zeros P.keyLen
    frameL := zeros P.frameLen }

/-- An instance with parameters P right after hardware reset, with nothing presented to it
(70_reset_and_hazards.md R200; log entry 14). -/
def State.resetOf (P : Params) : State :=
  { params := P, arch := CoreState.resetOf P, inFlight := none, rsp := none, inputs := [] }

/-- The default instance right after hardware reset (10_state.md R34; log entry 1). -/
def State.reset : State := State.resetOf Params.reference

end Sys2Proof.Machine
end

