-- ==== Sys2Proof/Machine/ShiftRegister.lean ====
section
/-! DEFINITION. The tapped shift register primitives FEEDBACK, SHIFT1, SHIFT (spec/40_shift_register.md).
Index 0 of a register is its output end (00_scope.md R14). -/

namespace Sys2Proof.Machine

open Sys2Proof

/-- `s[i]`. Every index the rules use is inside its sequence (20_memory.md R41); outside it the model
reads 0. DESIGN CHOICE, unsafe for statements about unreachable states (log entry 9). -/
def bitAt (s : BitSeq) (i : Nat) : Bit := s.getD i false

/-- `XOR{ … }` over the bits of a sequence; 0 over none (00_scope.md R10). -/
def xorAll (s : BitSeq) : Bit := s.foldr Bool.xor false

/-- The feedback-tap set of an entry as the list of its members (10_state.md R24). -/
def tapSet (e : Entry) : List Nat := (List.range e.taps.length).filter (bitAt e.taps)

/-- FEEDBACK: the XOR of the register's bits at the tap positions, here every bit masked by the tap
mask (40_shift_register.md R91; `feedback_eq_xor_over_tapSet` in Sys2Proof/Laws/Primitives.lean). -/
def feedback (e : Entry) (r : BitSeq) : Bit := xorAll (List.zipWith Bool.and e.taps r)

/-- SHIFT1: every element moves one position toward index 0, the feedback XOR the injected bit enters at
the input end, and the bit at index 0 is dropped (40_shift_register.md R92). -/
def shift1 (e : Entry) (r : BitSeq) (inj : Bit) : BitSeq × Bit :=
  ((r ++ [Bool.xor (feedback e r) inj]).tail, bitAt r 0)

/-- The loop of SHIFT, with the return bit of the repetition before. -/
def shiftLoop (e : Entry) : Nat → BitSeq → Bit → BitSeq × Bit
  | 0, r, ret => (r, ret)
  | n + 1, r, _ => shiftLoop e n (shift1 e r false).1 (shift1 e r false).2

/-- SHIFT by n: n repetitions of SHIFT1 with nothing injected; the return bit is the one the last
repetition dropped, and `r[0]` for n = 0 (40_shift_register.md R93). No command uses it. -/
def shiftN (e : Entry) (r : BitSeq) (n : Nat) : BitSeq × Bit := shiftLoop e n r (bitAt r 0)

end Sys2Proof.Machine
end

