-- ==== Sys2Proof/Machine/MajorityClock.lean ====
section
/-! DEFINITION. The majority clock controller MAJ, CLOCKBITS, ENABLES (spec/41_majority_clock.md). -/

namespace Sys2Proof.Machine

open Sys2Proof

/-- MAJ: 1 when at least two of the three bits are 1 (41_majority_clock.md R100). -/
def maj (a b c : Bit) : Bit := decide (2 ≤ a.toNat + b.toNat + c.toNat)

/-- Three bits, one for each register. -/
structure Bits3 where
  b1 : Bit
  b2 : Bit
  b3 : Bit
  deriving DecidableEq, Repr

/-- CLOCKBITS: `R[j][CLK[j]]` (41_majority_clock.md R102). -/
def clockBits (c : Cfg) (R : Regs) : Bits3 :=
  { b1 := bitAt R.r1 c.e1.clk, b2 := bitAt R.r2 c.e2.clk, b3 := bitAt R.r3 c.e3.clk }

/-- ENABLES: the majority of the clocking bits and, for each register, whether its bit equals it
(41_majority_clock.md R103). -/
def enables (cb : Bits3) : Bit × Bits3 :=
  let m := maj cb.b1 cb.b2 cb.b3
  (m, { b1 := cb.b1 == m, b2 := cb.b2 == m, b3 := cb.b3 == m })

end Sys2Proof.Machine
end

