-- ==== Sys2Proof/Machine/Cipher.lean ====
section
/-! DEFINITION. The pure functions on the register triple: CONSTRUCT, LOADBIT, LOADSEQ, STEP, WARM,
KEYSETUP, KS (spec/42_cipher_fsm.md section 1). -/

namespace Sys2Proof.Machine

open Sys2Proof

/-- CONSTRUCT: three registers of the configured lengths, all bits 0 (42_cipher_fsm.md R111). -/
def construct (c : Cfg) : Regs :=
  { r1 := zeros c.e1.len, r2 := zeros c.e2.len, r3 := zeros c.e3.len }

/-- LOADBIT: all three registers shift, whatever their clocking bits, each with the same bit injected
(42_cipher_fsm.md R112). -/
def loadBit (c : Cfg) (R : Regs) (k : Bit) : Regs :=
  { r1 := (shift1 c.e1 R.r1 k).1, r2 := (shift1 c.e2 R.r2 k).1, r3 := (shift1 c.e3 R.r3 k).1 }

/-- LOADSEQ: LOADBIT for each element, `s[0]` first (42_cipher_fsm.md R113). -/
def loadSeq (c : Cfg) (R : Regs) : BitSeq → Regs
  | [] => R
  | k :: s => loadSeq c (loadBit c R k) s

/-- One register in a step: shifted with nothing injected when enabled, unchanged when not
(42_cipher_fsm.md R116). -/
def shiftIf (en : Bit) (e : Entry) (r : BitSeq) : BitSeq := if en then (shift1 e r false).1 else r

/-- The registers after one majority-clocked step; all clocking bits are read before any shift
(42_cipher_fsm.md R116, 41_majority_clock.md R104). -/
def stepRegs (c : Cfg) (R : Regs) : Regs :=
  let en := (enables (clockBits c R)).2
  { r1 := shiftIf en.b1 c.e1 R.r1, r2 := shiftIf en.b2 c.e2 R.r2, r3 := shiftIf en.b3 c.e3 R.r3 }

/-- `R[1][OUT[1]] ^ R[2][OUT[2]] ^ R[3][OUT[3]]` (42_cipher_fsm.md R116). -/
def outputBit (c : Cfg) (R : Regs) : Bit :=
  Bool.xor (Bool.xor (bitAt R.r1 c.e1.out) (bitAt R.r2 c.e2.out)) (bitAt R.r3 c.e3.out)

/-- STEP: the registers after the step, and the output bit read from them, after the shifts
(42_cipher_fsm.md R116, R117; 90_conflicts.md C1). -/
def cipherStep (c : Cfg) (R : Regs) : Regs × Bit := (stepRegs c R, outputBit c (stepRegs c R))

/-- WARM for n steps: the output bits are discarded (42_cipher_fsm.md R118). -/
def warm (c : Cfg) : Nat → Regs → Regs
  | 0, R => R
  | n + 1, R => warm c n (cipherStep c R).1

/-- KEYSETUP: construct, load the key, load the frame, warm up (42_cipher_fsm.md R120, R114). -/
def keySetup (P : Params) (c : Cfg) (key frame : BitSeq) : Regs :=
  warm c P.warmupN (loadSeq c (loadSeq c (construct c) key) frame)

/-- KS: n keystream bits, the first produced is element 0 (42_cipher_fsm.md R122). -/
def keystream (c : Cfg) : Nat → Regs → Regs × BitSeq
  | 0, R => (R, [])
  | n + 1, R =>
    ((keystream c n (cipherStep c R).1).1, (cipherStep c R).2 :: (keystream c n (cipherStep c R).1).2)

end Sys2Proof.Machine
end

