-- ==== Sys2Proof/Machine/Combiner.lean ====
section
/-! DEFINITION. The keystream combiner XORSEQ (spec/43_combiner.md), independent of the state (R140). -/

namespace Sys2Proof.Machine

open Sys2Proof

/-- XORSEQ: the bitwise XOR of two sequences of equal length, else LengthMismatch
(43_combiner.md R141, R142). -/
def xorSeq (text ks : BitSeq) : Except Status BitSeq :=
  if text.length = ks.length then .ok (List.zipWith Bool.xor text ks) else .error .errLength

end Sys2Proof.Machine
end

