-- ==== Sys2Proof/Machine/Flags.lean ====
section
/-! DEFINITION. What is driven from the state: the core has no flags, only status values that are
functions of the state and codes in responses (spec/10_state.md R29, R31; 30_encoding.md R68 to R73). -/

namespace Sys2Proof.Machine

open Sys2Proof

/-- `busy(S)` (10_state.md R29). -/
def busy (S : CoreState) : Bool :=
  match S.phase with
  | .loadKey => true
  | .loadFrame => true
  | .warmup => true
  | .unbuilt => decide (0 < S.nrem)
  | .unloaded => decide (0 < S.nrem)
  | .ready => decide (0 < S.nrem)
  | .running => decide (0 < S.nrem)

/-- `idle(S)`, the negation of `busy(S)` (10_state.md R29). -/
def idle (S : CoreState) : Bool := !busy S

/-- Phase codes (30_encoding.md R68). -/
def Phase.code : Phase → BitVec 3
  | .unbuilt => 0#3
  | .unloaded => 1#3
  | .loadKey => 2#3
  | .loadFrame => 3#3
  | .warmup => 4#3
  | .ready => 5#3
  | .running => 6#3

/-- Status codes (30_encoding.md R69). -/
def Status.code : Status → BitVec 3
  | .ok => 0#3
  | .errConfig => 1#3
  | .errLength => 2#3
  | .errPhase => 3#3
  | .errOpcode => 4#3

/-- `busy_o` (10_state.md R31). -/
def busyOut (s : State) : Bit := busy s.arch

/-- `phase_o` (10_state.md R31). -/
def phaseOut (s : State) : BitVec 3 := s.arch.phase.code

/-- `rst`: the host presents hardware reset (30_encoding.md R70, 70_reset_and_hazards.md R200). -/
def rst (s : State) : Bit := s.inputs.head? == some Input.reset

/-- `cmd_ready = idle(S) and not rst` (30_encoding.md R70, 70_reset_and_hazards.md R200). -/
def cmdReady (s : State) : Bit := idle s.arch && !rst s

/-- `rsp_valid`: a response is presented (30_encoding.md R70), and 0 while `rst = 1`
(70_reset_and_hazards.md R200). -/
def rspValid (s : State) : Bit := s.rsp.isSome && !rst s

/-- `rsp_status`, when a response is presented (30_encoding.md R70). -/
def Response.statusOut (r : Response) : BitVec 3 := r.status.code

/-- `rsp_phase`, when a response is presented (30_encoding.md R70). -/
def Response.phaseOut (r : Response) : BitVec 3 := r.phase.code

/-- `rsp_len`: the length of the combiner's result, 0 for every other command and on error
(30_encoding.md R70). -/
def Response.lenOut (r : Response) : Nat :=
  match r.payload with
  | .text result => result.length
  | .none => 0
  | .bit _ => 0
  | .keystream _ => 0
  | .snapshot _ _ _ => 0

/-- `rsp_data`: the combiner's result, element i on bit i and zero above `rsp_len`; 0 for every other
command and on error (30_encoding.md R70, 43_combiner.md R143). -/
def Response.dataOut (r : Response) : Nat :=
  match r.payload with
  | .text result => natOfBits result
  | .none => 0
  | .bit _ => 0
  | .keystream _ => 0
  | .snapshot _ _ _ => 0

/-- A register's LMAX-bit storage `r_j`: zero at and above `LEN[j]` (10_state.md R22). -/
def storage (P : Params) (r : BitSeq) : BitSeq := r ++ zeros (P.lmax - r.length)

/-- `rsp_snap = { zext_LMAX(r_3), zext_LMAX(r_2), zext_LMAX(r_1) }`, 0 for every other command
(30_encoding.md R70, 44_host_commands.md R160). -/
def Response.snapOut (P : Params) (r : Response) : Nat :=
  match r.payload with
  | .snapshot r1 r2 r3 => natOfBits (storage P r1 ++ storage P r2 ++ storage P r3)
  | .none => 0
  | .bit _ => 0
  | .keystream _ => 0
  | .text _ => 0

/-- `ks_valid` for what a tick emitted (30_encoding.md R70, R73). -/
def ksValid (emitted : Option Bit) : Bit := emitted.isSome

/-- `ks_bit` for what a tick emitted; 0 when `ks_valid = 0` (30_encoding.md R70). -/
def ksBit (emitted : Option Bit) : Bit := emitted.getD false

end Sys2Proof.Machine
end

