-- ==== Sys2Proof/Machine/Operands.lean ====
section
/-! DEFINITION. The operand forms and the checks commands make on them (spec/10_state.md R25;
00_scope.md R7, R8; 43_combiner.md R143). -/

namespace Sys2Proof.Machine

open Sys2Proof

/-- `wf_entry` (10_state.md R25): (a) `1 <= LEN <= LMAX`, (b) `CLK < LEN`, (c) `OUT < LEN`, (d) no mask
bit at or above position LEN is set. -/
def wfEntry (P : Params) (e : Entry) : Bool :=
  decide (1 ≤ e.len) && decide (e.len ≤ P.lmax) && decide (e.clk < e.len) &&
    decide (e.out < e.len) && (e.taps.drop e.len).all (!·)

/-- `wf`: `wf_entry` for each of the three entries (10_state.md R25). -/
def wfCfg (P : Params) (c : Cfg) : Bool := wfEntry P c.e1 && wfEntry P c.e2 && wfEntry P c.e3

/-- The key and the frame have the instance's lengths, which the ports guarantee and a list of bits does
not (00_scope.md R7, 92_eei_decisions.md D18). -/
def wfKeyFrame (P : Params) (key frame : BitSeq) : Bool :=
  decide (key.length = P.keyLen) && decide (frame.length = P.frameLen)

/-- An X-format data operand: only its first `len` bits are used (43_combiner.md R143, 30_encoding.md R65). -/
def sampled (data : BitSeq) (len : Nat) : BitSeq := data.take len

/-- The reference geometry `CFG_A51` (00_scope.md R8), its masks `lmax` bits wide. -/
def cfgA51 (P : Params) : Cfg :=
  { e1 := { len := 19, clk := 10, out := 0, taps := bitsOfNat P.lmax 0x00000027 }
    e2 := { len := 22, clk := 11, out := 0, taps := bitsOfNat P.lmax 0x00000003 }
    e3 := { len := 23, clk := 12, out := 0, taps := bitsOfNat P.lmax 0x00008007 } }

end Sys2Proof.Machine
end

