-- ==== Sys2Proof/Machine/Ops.lean ====
section
/-! DEFINITION. The operations the commands share: the sequencer's SETTLE and TICK (spec/42_cipher_fsm.md
section 2), answering a command and raising an error (44_host_commands.md, 60_exceptions.md), running a
command's ticks, and the host's inputs (70_reset_and_hazards.md R200, 30_encoding.md R71). -/

namespace Sys2Proof.Machine

open Sys2Proof

/-! ### The sequencer -/

/-- The first test of SETTLE (42_cipher_fsm.md R126). -/
def settleKey (P : Params) (S : CoreState) : CoreState :=
  if S.phase = .loadKey ∧ S.cnt = P.keyLen then { S with phase := .loadFrame, cnt := 0 } else S

/-- The second test of SETTLE (42_cipher_fsm.md R126). -/
def settleFrame (P : Params) (S : CoreState) : CoreState :=
  if S.phase = .loadFrame ∧ S.cnt = P.frameLen then { S with phase := .warmup, cnt := 0 } else S

/-- The third test of SETTLE (42_cipher_fsm.md R126). -/
def settleWarmup (P : Params) (S : CoreState) : CoreState :=
  if S.phase = .warmup ∧ S.cnt = P.warmupN then { S with phase := .ready, cnt := 0 } else S

/-- SETTLE: a finished phase is left at once; "the three tests are made in this order, each on the result
of the one before" (42_cipher_fsm.md R126). -/
def settle (P : Params) (S : CoreState) : CoreState := settleWarmup P (settleFrame P (settleKey P S))

/-- The tick of phase LOAD_KEY, before SETTLE (42_cipher_fsm.md R125). -/
def tickKey (S : CoreState) : CoreState :=
  { S with regs := loadBit S.cfg S.regs (bitAt S.keyL S.cnt), cnt := S.cnt + 1 }

/-- The tick of phase LOAD_FRAME, before SETTLE (42_cipher_fsm.md R125). -/
def tickFrame (S : CoreState) : CoreState :=
  { S with regs := loadBit S.cfg S.regs (bitAt S.frameL S.cnt), cnt := S.cnt + 1 }

/-- The tick of phase WARMUP, before SETTLE; its output bit is discarded (42_cipher_fsm.md R125). -/
def tickWarmup (S : CoreState) : CoreState :=
  { S with regs := (cipherStep S.cfg S.regs).1, cnt := S.cnt + 1 }

/-- The tick of phases READY and RUNNING, where nrem is above 0 (else log entry 18), before SETTLE
(42_cipher_fsm.md R125). -/
def tickRun (S : CoreState) : CoreState :=
  { S with regs := (cipherStep S.cfg S.regs).1, nrem := S.nrem - 1, phase := .running }

/-- TICK: the next state and the emitted keystream bit, if any (42_cipher_fsm.md R125). The spec defines it on
busy states only. DESIGN CHOICE (log entry 18), unsafe: in an idle READY or RUNNING state it steps, emits and
goes to RUNNING as in a busy one, with nrem left at 0; in UNBUILT and UNLOADED, which are busy in no reachable
state, it does nothing. step and cycle apply it to busy states only (`nextEvent`). -/
def tick (P : Params) (S : CoreState) : CoreState × Option Bit :=
  match S.phase with
  | .loadKey => (settle P (tickKey S), none)
  | .loadFrame => (settle P (tickFrame S), none)
  | .warmup => (settle P (tickWarmup S), none)
  | .ready => (settle P (tickRun S), some (cipherStep S.cfg S.regs).2)
  | .running => (settle P (tickRun S), some (cipherStep S.cfg S.regs).2)
  | .unbuilt => (S, none)
  | .unloaded => (S, none)

/-- The ticks a busy state still has to run (42_cipher_fsm.md R127, 70_reset_and_hazards.md R221). -/
def workLeft (P : Params) (S : CoreState) : Nat :=
  match S.phase with
  | .loadKey => (P.keyLen - S.cnt) + P.frameLen + P.warmupN
  | .loadFrame => (P.frameLen - S.cnt) + P.warmupN
  | .warmup => P.warmupN - S.cnt
  | .unbuilt => S.nrem
  | .unloaded => S.nrem
  | .ready => S.nrem
  | .running => S.nrem

/-! ### Answering a command -/

/-- `respond(status, payload)`: ends the command; the response carries the phase of the state as it then
stands (44_host_commands.md opening; 30_encoding.md R72). -/
def respond (st : Status) (pl : Payload) (s : State) : State :=
  { s with rsp := some { status := st, phase := s.arch.phase, payload := pl }, inFlight := none }

/-- `raise E`: the one error entry of the core, "the one response carrying a nonzero status"; no state of
the core is written, nothing is saved, no phase changes, and there is nothing to return from
(60_exceptions.md R186, R190). -/
def raiseError (st : Status) (s : State) : State := respond st .none s

/-- The payload an owed response will carry (30_encoding.md R72). -/
def InFlight.payload (f : InFlight) : Payload :=
  match f.reply with
  | .plain => .none
  | .oneBit => .bit (bitAt f.sent 0)
  | .bits => .keystream f.sent

/-- A tick's emission delivered after the bits already sent (30_encoding.md R73). -/
def InFlight.push (f : InFlight) (emitted : Option Bit) : InFlight :=
  { f with sent := f.sent ++ emitted.toList }

/-- The owed response is presented once all ticks of the command are done (30_encoding.md R71). -/
def replyIfDone (s : State) : State :=
  if busy s.arch then s
  else
    match s.inFlight with
    | none => s
    | some f => respond .ok f.payload s

/-- Accepting a command that may take ticks: the state of the core becomes S and the response is owed
(44_host_commands.md R150 step 4). -/
def openCommand (r : Reply) (S : CoreState) (s : State) : State :=
  replyIfDone { s with arch := S, rsp := none, inFlight := some { reply := r, sent := [] } }

/-- One tick of the command in progress, and its response if that was the last one and one is owed (log
entry 18). -/
def advance (s : State) : State :=
  replyIfDone
    { s with
      arch     := (tick s.params s.arch).1
      rsp      := none
      inFlight := s.inFlight.map (·.push (tick s.params s.arch).2) }

/-- At most n ticks, until the command has been answered. -/
def runTicks : Nat → State → State
  | 0, s => s
  | n + 1, s => if s.inFlight.isSome then runTicks n (advance s) else s

/-- `while busy(S): TICK(S)` and the response: an accepted command run to its end (44_host_commands.md R152,
R153, R154). The bound is the number of ticks left, so the loop is not cut short (70_reset_and_hazards.md R221). -/
def finish (s : State) : State := runTicks (workLeft s.params s.arch) s

/-! ### The host's inputs -/

/-- Hardware reset: the reset state whatever the state was; a command in progress is abandoned without a
response (70_reset_and_hazards.md R200). The host's later inputs stay (log entry 13). -/
def hardReset (s : State) : State := { State.resetOf s.params with inputs := s.inputs.tail }

/-- A command is taken from the ports; the response of the step before is no longer presented. -/
def takeInput (s : State) : State := { s with inputs := s.inputs.tail, rsp := none }

/-- A step that samples no command: a presented command stays presented (30_encoding.md R71 "nothing is
sampled"), an edge without a command is past. -/
def passEdge (s : State) : State :=
  { s with
    rsp    := none
    inputs :=
      match s.inputs with
      | .quiet :: rest => rest
      | ins => ins }

/-- What happens next. Hardware reset overrides everything (60_exceptions.md R187, 70_reset_and_hazards.md
R200); in a busy state only a tick happens (10_state.md R29); an idle core accepts a presented command or
waits (70_reset_and_hazards.md R221). -/
inductive Event where
  | reset
  | tick
  | command (p : Ports)
  | wait
  deriving DecidableEq, Repr

/-- The event of a state (see `Event`). -/
def nextEvent (s : State) : Event :=
  match s.inputs with
  | .reset :: _ => .reset
  | .command p :: _ => if busy s.arch then .tick else .command p
  | .quiet :: _ => if busy s.arch then .tick else .wait
  | [] => if busy s.arch then .tick else .wait

/-- Building an instance: refused when its parameters break 00_scope.md R7 (93_implementation_defined.md U7). -/
def buildInstance (P : Params) : Option State := if P.ok then some (State.resetOf P) else none

end Sys2Proof.Machine
end

