-- ==== Sys2Proof/Machine/Combine.lean ====
section
/-! DEFINITION. COMBINE, ENCRYPT, DECRYPT (spec/44_host_commands.md R155, R156, R157): one operation under
three opcodes. -/

namespace Sys2Proof.Machine

open Sys2Proof

/-- The X-format operation: XORSEQ of the used parts of the operands, answered with its result or with
LengthMismatch; no state of the core is read or written (44_host_commands.md R155). -/
def combineX (tlen klen : Nat) (text ks : BitSeq) (s : State) : State :=
  match xorSeq (sampled text tlen) (sampled ks klen) with
  | .ok result => respond .ok (.text result) s
  | .error e => raiseError e s

/-- COMBINE (44_host_commands.md R155). -/
def execCombine (tlen klen : Nat) (text ks : BitSeq) (s : State) : Host.Outcome State Fault Refusal :=
  .next (combineX tlen klen text ks s)

/-- ENCRYPT: "differs from COMBINE in its opcode only" (44_host_commands.md R156). -/
def execEncrypt (tlen klen : Nat) (text ks : BitSeq) (s : State) : Host.Outcome State Fault Refusal :=
  .next (combineX tlen klen text ks s)

/-- DECRYPT: "differs from COMBINE and ENCRYPT in its opcode only" (44_host_commands.md R157). -/
def execDecrypt (tlen klen : Nat) (text ks : BitSeq) (s : State) : Host.Outcome State Fault Refusal :=
  .next (combineX tlen klen text ks s)

end Sys2Proof.Machine
end

