-- ==== Sys2Proof/Machine/Construct.lean ====
section
/-! DEFINITION. INIT and START (spec/44_host_commands.md R151, R152). -/

namespace Sys2Proof.Machine

open Sys2Proof

/-- INIT (44_host_commands.md R151): with a well-formed configuration everything is written together,
else ConfigError and nothing is written. `key_l` and `frame_l` are not touched. It takes no tick. -/
def acceptInit (c : Cfg) (s : State) : State :=
  if wfCfg s.params c then
    respond .ok .none
      { s with
        arch := { s.arch with cfg := c, regs := construct c, phase := .unloaded, cnt := 0, nrem := 0 } }
  else raiseError .errConfig s

/-- INIT as a whole command. -/
def execInit (c : Cfg) (s : State) : Host.Outcome State Fault Refusal := .next (acceptInit c s)

/-- The acceptance of START (44_host_commands.md R152): PhaseError outside UNLOADED, then ConfigError for
a key or frame of the wrong length (00_scope.md R7; DEDUCED, log entry 8), else the key and the frame are
latched and loading begins. -/
def acceptStart (key frame : BitSeq) (s : State) : State :=
  if s.arch.phase = .unloaded then
    if wfKeyFrame s.params key frame then
      openCommand .plain
        (settle s.params { s.arch with keyL := key, frameL := frame, phase := .loadKey, cnt := 0 }) s
    else raiseError .errConfig s
  else raiseError .errPhase s

/-- START as a whole command: accepted and run to its response. -/
def execStart (key frame : BitSeq) (s : State) : Host.Outcome State Fault Refusal :=
  .next (finish (acceptStart key frame s))

end Sys2Proof.Machine
end

