-- ==== Sys2Proof/Machine/Diagnostics.lean ====
section
/-! DEFINITION. STATUS and SNAP (spec/44_host_commands.md R159, R160). -/

namespace Sys2Proof.Machine

open Sys2Proof

/-- STATUS: OK, no payload; the response's phase is the information (44_host_commands.md R159). -/
def acceptStatus (s : State) : State := respond .ok .none s

/-- STATUS as a whole command. -/
def execStatus (s : State) : Host.Outcome State Fault Refusal := .next (acceptStatus s)

/-- SNAP: the three registers' current contents (44_host_commands.md R160). -/
def acceptSnap (s : State) : State :=
  respond .ok (.snapshot s.arch.regs.r1 s.arch.regs.r2 s.arch.regs.r3) s

/-- SNAP as a whole command. -/
def execSnap (s : State) : Host.Outcome State Fault Refusal := .next (acceptSnap s)

end Sys2Proof.Machine
end

