-- ==== Sys2Proof/Machine/Keystream.lean ====
section
/-! DEFINITION. NEXT and NEXTN (spec/44_host_commands.md R153, R154). -/

namespace Sys2Proof.Machine

open Sys2Proof

/-- The phases in which keystream can be asked for (30_encoding.md R62). -/
def producesKeystream (p : Phase) : Bool := decide (p = .ready) || decide (p = .running)

/-- The acceptance of NEXT (44_host_commands.md R153). -/
def acceptNext (s : State) : State :=
  if producesKeystream s.arch.phase then openCommand .oneBit { s.arch with nrem := 1 } s
  else raiseError .errPhase s

/-- NEXT as a whole command. -/
def execNext (s : State) : Host.Outcome State Fault Refusal := .next (finish (acceptNext s))

/-- The acceptance of NEXTN (44_host_commands.md R154); with n = 0 it is answered at once. -/
def acceptNextn (n : Nat) (s : State) : State :=
  if producesKeystream s.arch.phase then openCommand .bits { s.arch with nrem := n } s
  else raiseError .errPhase s

/-- NEXTN as a whole command. -/
def execNextn (n : Nat) (s : State) : Host.Outcome State Fault Refusal := .next (finish (acceptNextn n s))

end Sys2Proof.Machine
end

