-- ==== Sys2Proof/Machine/Reserved.lean ====
section
/-! DEFINITION. The reserved opcodes: accepted, no state change, answered ERR_OPCODE
(spec/30_encoding.md R63, 60_exceptions.md R184; log entry 7). -/

namespace Sys2Proof.Machine

open Sys2Proof

/-- OpcodeError (60_exceptions.md R184). -/
def opcodeError (s : State) : State := raiseError .errOpcode s

/-- Reserved opcode 0x9. -/
def execReserved9 (s : State) : Host.Outcome State Fault Refusal := .next (opcodeError s)

/-- Reserved opcode 0xA. -/
def execReservedA (s : State) : Host.Outcome State Fault Refusal := .next (opcodeError s)

/-- Reserved opcode 0xB. -/
def execReservedB (s : State) : Host.Outcome State Fault Refusal := .next (opcodeError s)

/-- Reserved opcode 0xC. -/
def execReservedC (s : State) : Host.Outcome State Fault Refusal := .next (opcodeError s)

/-- Reserved opcode 0xD. -/
def execReservedD (s : State) : Host.Outcome State Fault Refusal := .next (opcodeError s)

/-- Reserved opcode 0xE. -/
def execReservedE (s : State) : Host.Outcome State Fault Refusal := .next (opcodeError s)

/-- Reserved opcode 0xF. -/
def execReservedF (s : State) : Host.Outcome State Fault Refusal := .next (opcodeError s)

end Sys2Proof.Machine
end

