-- ==== Sys2Proof/Machine/Dispatch.lean ====
section
/-! DEFINITION. exec(c, S): the state and response after command c in state S (spec/44_host_commands.md
R150, 20_memory.md R50). A command is atomic (log entry 2). -/

namespace Sys2Proof.Machine

open Sys2Proof

def exec (i : Instr) (s : State) : Host.Outcome State Fault Refusal :=
  match i with
  | .status => Sys2Proof.Machine.execStatus s
  | .init c => Sys2Proof.Machine.execInit c s
  | .start key frame => Sys2Proof.Machine.execStart key frame s
  | .next => Sys2Proof.Machine.execNext s
  | .nextn n => Sys2Proof.Machine.execNextn n s
  | .combine tlen klen text ks => Sys2Proof.Machine.execCombine tlen klen text ks s
  | .encrypt tlen klen text ks => Sys2Proof.Machine.execEncrypt tlen klen text ks s
  | .decrypt tlen klen text ks => Sys2Proof.Machine.execDecrypt tlen klen text ks s
  | .snap => Sys2Proof.Machine.execSnap s
  | .reserved9 => Sys2Proof.Machine.execReserved9 s
  | .reservedA => Sys2Proof.Machine.execReservedA s
  | .reservedB => Sys2Proof.Machine.execReservedB s
  | .reservedC => Sys2Proof.Machine.execReservedC s
  | .reservedD => Sys2Proof.Machine.execReservedD s
  | .reservedE => Sys2Proof.Machine.execReservedE s
  | .reservedF => Sys2Proof.Machine.execReservedF s

end Sys2Proof.Machine
end

