-- ==== Sys2Proof/Machine/Step.lean ====
section
/-! DEFINITION. One step of the machine: hardware reset, one tick, one whole command, or waiting
(spec/10_state.md R29, 44_host_commands.md R150, 70_reset_and_hazards.md R200, R221; log entry 2). -/

namespace Sys2Proof.Machine

open Sys2Proof

/-- One step. See `nextEvent` for what comes first. -/
def step (s : State) : Host.Outcome State Fault Refusal :=
  match nextEvent s with
  | .reset => .next (hardReset s)
  | .tick => .next (advance (passEdge s))
  | .command p => exec (decode s.params p) (takeInput s)
  | .wait => .next (passEdge s)

/-- The core fetches nothing (20_memory.md R52): its "program" is what the host presents. The word is put
on the command ports as the host's next action (log entries 3 and 4). -/
def State.withFetchWord (s : State) (nbits w : Nat) : State :=
  { s with inputs := .command (Ports.ofBits s.params (wordBits s.params nbits w)) :: s.inputs }

end Sys2Proof.Machine
end

