-- ==== Sys2Proof/Machine/Script.lean ====
section
/-! DEFINITION. Sequences of commands and the pseudo-commands (spec/20_memory.md R50, 30_encoding.md R75;
log entry 16). -/

namespace Sys2Proof.Machine

open Sys2Proof

/-- The state after commands accepted in this order: `exec(ck, … exec(c1, S0))` (20_memory.md R50). -/
def execAll : List Instr → State → Host.Outcome State Fault Refusal
  | [], s => .next s
  | i :: is, s =>
    match exec i s with
    | .next t => execAll is t
    | .fault r => .fault r
    | .refused r => .refused r

/-- The response of the last step was OK. -/
def answeredOk (s : State) : Bool :=
  match s.rsp with
  | some r => decide (r.status = .ok)
  | none => false

/-- NEWCIPHER: INIT, then START "only if the first answered OK" (30_encoding.md R75). -/
def newCipher (c : Cfg) (key frame : BitSeq) (s : State) : Host.Outcome State Fault Refusal :=
  match exec (.init c) s with
  | .next t => if answeredOk t then exec (.start key frame) t else .next t
  | .fault r => .fault r
  | .refused r => .refused r

/-- REKEY: the same with the configuration the host remembers, `c` (30_encoding.md R75). -/
def rekey (c : Cfg) (key frame : BitSeq) (s : State) : Host.Outcome State Fault Refusal :=
  match exec (.init c) s with
  | .next t => exec (.start key frame) t
  | .fault r => .fault r
  | .refused r => .refused r

/-- CRYPT: NEXTN n, then COMBINE of the text with the keystream it gave (30_encoding.md R75). When NEXTN
answers with an error there is no keystream to combine. -/
def crypt (n : Nat) (text : BitSeq) (s : State) : Host.Outcome State Fault Refusal :=
  match exec (.nextn n) s with
  | .next t =>
    match t.rsp with
    | some { payload := .keystream ks, .. } =>
      exec (.combine n n text (ks ++ zeros (s.params.cmax - ks.length))) t
    | _ => .next t
  | .fault r => .fault r
  | .refused r => .refused r

end Sys2Proof.Machine
end

