-- ==== Sys2Proof/Machine/Cycle.lean ====
section
/-! DEFINITION. The same machine at the level of ticks (spec/00_scope.md R9, 42_cipher_fsm.md R125, R128):
a command is only accepted, its ticks are steps of their own, and its response comes with the last of them.
Here the busy phases are visible between steps and hardware reset can fall in the middle of a command. -/

namespace Sys2Proof.Machine

open Sys2Proof

/-- Accepting a command (44_host_commands.md R150): the commands without ticks are answered at once. -/
def accept (i : Instr) (s : State) : State :=
  match i with
  | .status => acceptStatus s
  | .init c => acceptInit c s
  | .start key frame => acceptStart key frame s
  | .next => acceptNext s
  | .nextn n => acceptNextn n s
  | .combine tlen klen text ks => combineX tlen klen text ks s
  | .encrypt tlen klen text ks => combineX tlen klen text ks s
  | .decrypt tlen klen text ks => combineX tlen klen text ks s
  | .snap => acceptSnap s
  | .reserved9 => opcodeError s
  | .reservedA => opcodeError s
  | .reservedB => opcodeError s
  | .reservedC => opcodeError s
  | .reservedD => opcodeError s
  | .reservedE => opcodeError s
  | .reservedF => opcodeError s

/-- One micro-step: hardware reset, one tick, the acceptance of one command, or waiting. -/
def cycle (s : State) : State :=
  match nextEvent s with
  | .reset => hardReset s
  | .tick => advance (passEdge s)
  | .command p => accept (decode s.params p) (takeInput s)
  | .wait => passEdge s

/-- n micro-steps. -/
def cycles : Nat → State → State
  | 0, s => s
  | n + 1, s => cycles n (cycle s)

/-- The keystream bit this micro-step puts on `ks_bit`, if any (30_encoding.md R73): only a tick emits. -/
def emission (s : State) : Option Bit :=
  match nextEvent s with
  | .reset => none
  | .tick => (tick s.params s.arch).2
  | .command _ => none
  | .wait => none

/-- The number of ticks a command takes when it is accepted in state s (42_cipher_fsm.md R127). -/
def tickCount (i : Instr) (s : State) : Nat :=
  match i with
  | .status => 0
  | .init _ => 0
  | .start key frame =>
    if s.arch.phase = .unloaded ∧ wfKeyFrame s.params key frame = true then
      s.params.keyLen + s.params.frameLen + s.params.warmupN
    else 0
  | .next => if producesKeystream s.arch.phase then 1 else 0
  | .nextn n => if producesKeystream s.arch.phase then n else 0
  | .combine _ _ _ _ => 0
  | .encrypt _ _ _ _ => 0
  | .decrypt _ _ _ _ => 0
  | .snap => 0
  | .reserved9 => 0
  | .reservedA => 0
  | .reservedB => 0
  | .reservedC => 0
  | .reservedD => 0
  | .reservedE => 0
  | .reservedF => 0

end Sys2Proof.Machine
end

