-- ==== Sys2Proof/Safety.lean ====
section
/-! DEFINITION. What holds of every state the core can be in (spec/10_state.md R33, with R22, R25, R28,
R29). -/

namespace Sys2Proof.Machine

open Sys2Proof

/-- `len(R[j]) = cfg.LEN[j]` (10_state.md R33(b); in UNBUILT all are 0, R33(a)). -/
abbrev CoreState.LengthsFit (S : CoreState) : Prop :=
  S.regs.r1.length = S.cfg.e1.len ∧ S.regs.r2.length = S.cfg.e2.len ∧ S.regs.r3.length = S.cfg.e3.len

/-- Every `LEN[j]` is 0 (10_state.md R33(a)). -/
abbrev CoreState.NoLength (S : CoreState) : Prop :=
  S.cfg.e1.len = 0 ∧ S.cfg.e2.len = 0 ∧ S.cfg.e3.len = 0

/-- The bounds of 10_state.md R28 as they stand between two steps: SETTLE has already left a phase whose
count is complete, so in a busy phase `cnt` is below its length. -/
abbrev CoreState.CountsFit (P : Params) (S : CoreState) : Prop :=
  (S.phase = .loadKey → S.cnt < P.keyLen) ∧
  (S.phase = .loadFrame → S.cnt < P.frameLen) ∧
  (S.phase = .warmup → S.cnt < P.warmupN) ∧
  (S.phase = .unbuilt ∨ S.phase = .unloaded ∨ S.phase = .ready ∨ S.phase = .running → S.cnt = 0) ∧
  (S.nrem ≠ 0 → S.phase = .ready ∨ S.phase = .running) ∧
  S.nrem < 2 ^ P.nw

/-- The latches have the instance's lengths (10_state.md R30) and the tap masks are LMAX bits (R24). -/
abbrev CoreState.WidthsFit (P : Params) (S : CoreState) : Prop :=
  S.keyL.length = P.keyLen ∧ S.frameL.length = P.frameLen ∧
  S.cfg.e1.taps.length = P.lmax ∧ S.cfg.e2.taps.length = P.lmax ∧ S.cfg.e3.taps.length = P.lmax

/-- The invariant of the core's state (10_state.md R33(a) to (e)). -/
abbrev CoreState.Inv (P : Params) (S : CoreState) : Prop :=
  (S.phase = .unbuilt ↔ S.NoLength) ∧
  S.LengthsFit ∧
  (S.phase ≠ .unbuilt → wfCfg P S.cfg = true) ∧
  (S.phase = .unloaded → S.regs = construct S.cfg) ∧
  S.CountsFit P ∧
  S.WidthsFit P

/-- The phase in which an owed response of this kind can stand. -/
abbrev Reply.matchesPhase (r : Reply) (p : Phase) : Prop :=
  (r = .plain ↔ p = .loadKey ∨ p = .loadFrame ∨ p = .warmup)

/-- A response is owed exactly while the core is busy, and it is START's exactly in START's phases
(30_encoding.md R71, 10_state.md R29). -/
abbrev State.OwesWhileBusy (s : State) : Prop :=
  s.inFlight.isSome = busy s.arch ∧ ∀ f ∈ s.inFlight, f.reply.matchesPhase s.arch.phase

/-- The invariant of the machine: an instance that exists (00_scope.md R7), a core state as 10_state.md
R33 says, and a response owed exactly while busy. -/
abbrev State.Inv (s : State) : Prop :=
  s.params.ok = true ∧ s.arch.Inv s.params ∧ s.OwesWhileBusy

/-! ### Command against idle phase (spec/44_host_commands.md R162) -/

/-- The status of the response to command i in phase p: the entries of 44_host_commands.md R162, "OK*"
resolved by the operand check. -/
def summaryStatus (P : Params) (p : Phase) (i : Instr) : Status :=
  match i with
  | .status => .ok
  | .init c => if wfCfg P c then .ok else .errConfig
  | .start key frame =>
    if p = .unloaded then
      if key.length = P.keyLen ∧ frame.length = P.frameLen then .ok else .errConfig
    else .errPhase
  | .next => if p = .ready ∨ p = .running then .ok else .errPhase
  | .nextn _ => if p = .ready ∨ p = .running then .ok else .errPhase
  | .combine tlen klen _ _ => if tlen = klen then .ok else .errLength
  | .encrypt tlen klen _ _ => if tlen = klen then .ok else .errLength
  | .decrypt tlen klen _ _ => if tlen = klen then .ok else .errLength
  | .snap => .ok
  | .reserved9 => .errOpcode
  | .reservedA => .errOpcode
  | .reservedB => .errOpcode
  | .reservedC => .errOpcode
  | .reservedD => .errOpcode
  | .reservedE => .errOpcode
  | .reservedF => .errOpcode

/-- The phase after command i in phase p (44_host_commands.md R162, 42_cipher_fsm.md R130). -/
def summaryPhase (P : Params) (p : Phase) (i : Instr) : Phase :=
  if summaryStatus P p i = .ok then
    match i with
    | .init _ => .unloaded
    | .start _ _ => .ready
    | .next => .running
    | .nextn n => if n = 0 then p else .running
    | .status => p
    | .combine _ _ _ _ => p
    | .encrypt _ _ _ _ => p
    | .decrypt _ _ _ _ => p
    | .snap => p
    | .reserved9 => p
    | .reservedA => p
    | .reservedB => p
    | .reservedC => p
    | .reservedD => p
    | .reservedE => p
    | .reservedF => p
  else p

end Sys2Proof.Machine
end

