-- ==== Sys2Proof/Certificates/Slice0/Obligations.lean ====
section
/-! DEFINITION. The statements for the provers, each from the numbered rules of spec/. -/

open Sys2Proof Sys2Proof.Machine

/-! ### Encoding -/

/-- Words written out from 30_encoding.md R62 (opcodes), R66 and R67 (`cfg_in` of `CFG_A51`), R74 (operands
after the opcode; log entry 4). -/
def Obligations.TableWordsDecode : Prop :=
  decodeTableWord 4 0x0 = some .status ∧
  decodeTableWord 148 0x0000800703170000000302D60000002702931 = some (.init (cfgA51 Params.reference)) ∧
  decodeTableWord 90 0x134EFCDAB89674523122 =
    some (.start (bitsOfNat 64 0xEFCDAB8967452312) (bitsOfNat 22 0x000134)) ∧
  decodeTableWord 4 0x3 = some .next ∧
  decodeTableWord 20 0x00104 = some (.nextn 16) ∧
  decodeTableWord 530 (0x5 + 8 * 2 ^ 4 + 8 * 2 ^ 12 + 0x53 * 2 ^ 20 + 0xA6 * 2 ^ 275) =
    some (.combine 8 8 (bitsOfNat 255 0x53) (bitsOfNat 255 0xA6)) ∧
  decodeTableWord 4 0x8 = some .snap ∧
  decodeTableWord 4 0xB = some .reservedB

/-- Presented as it is encoded, every command whose operands fit its ports is read back (30_encoding.md R60,
R62, R65, R66, R67). -/
def Obligations.DecodeOfEncodeIsTheCommand : Prop :=
  ∀ (P : Params) (i : Instr), i.wf P = true → decode P (encode P i) = i

/-- The same for commands as bit sequences, one after another: the command is read back and the bits after
it are left (30_encoding.md R64, R74; the model's layout, log entry 4). -/
def Obligations.EncodedStreamDecodesBack : Prop :=
  ∀ (P : Params) (i : Instr) (rest : BitSeq), i.wf P = true →
    decodeBits P (encodeBits P i ++ rest) = .ok (i, rest)

/-- The ports carry only commands whose operands have the ports' widths (00_scope.md R7: a key of another
length "cannot be presented"). -/
def Obligations.DecodedCommandsFitTheirPorts : Prop :=
  ∀ (P : Params) (p : Ports), (decode P p).wf P = true

/-- 30_encoding.md R66: the positions of the fields of an entry, and "There are no reserved bits in an
entry": every CEW-bit value is the encoding of exactly the entry it is read as. -/
def Obligations.EntryLayout : Prop :=
  ∀ (P : Params) (v : BitSeq), v.length = P.cew →
    (decodeEntry P v).len = natOfBits (v.take P.lenw) ∧
    (decodeEntry P v).clk = natOfBits ((v.drop P.lenw).take P.idxw) ∧
    (decodeEntry P v).out = natOfBits ((v.drop (P.lenw + P.idxw)).take P.idxw) ∧
    (∀ i < P.lmax, bitAt (decodeEntry P v).taps i = bitAt v (P.lenw + 2 * P.idxw + i)) ∧
    (decodeEntry P v).fits P = true ∧
    encodeEntry P (decodeEntry P v) = v

/-- 30_encoding.md R61: ports the command's format does not list have no effect on state or response. -/
def Obligations.UnsampledPortsAreIgnored : Prop :=
  ∀ (s : State) (p q : Ports) (rest : List Input), idle s.arch = true → p.cmdOp = q.cmdOp →
    (opcodeFormat p.cmdOp = .C → p.cfgIn = q.cfgIn) →
    (opcodeFormat p.cmdOp = .K → p.keyIn = q.keyIn ∧ p.frameIn = q.frameIn) →
    (opcodeFormat p.cmdOp = .N → p.nIn = q.nIn) →
    (opcodeFormat p.cmdOp = .X →
      p.tlenIn = q.tlenIn ∧ p.klenIn = q.klenIn ∧ p.textIn = q.textIn ∧ p.ksIn = q.ksIn) →
    step { s with inputs := .command p :: rest } = step { s with inputs := .command q :: rest }

/-! ### Instances and reset -/

/-- 00_scope.md R7 (the constraints and the defaults): an instance is built exactly when its parameters
meet the constraints, and the defaults meet them. -/
def Obligations.OnlyLegalInstancesAreBuilt : Prop :=
  (∀ P : Params, buildInstance P = some (State.resetOf P) ∨ buildInstance P = none) ∧
  (∀ P : Params, buildInstance P ≠ none ↔
    1 ≤ P.lmax ∧ P.keyLen < 2 ^ P.nw ∧ P.frameLen < 2 ^ P.nw ∧ P.warmupN < 2 ^ P.nw ∧
      1 ≤ P.nw ∧ 1 ≤ P.clw) ∧
  buildInstance Params.reference = some State.reset

/-- 10_state.md R34, the column "value after hardware reset", for every instance and for State.reset, whose
parameters are the defaults of 00_scope.md R6 (that State.reset is the default instance, and that nothing
is presented or owed, is the model's choice: log entries 1 and 14). -/
def Obligations.ResetValues : Prop :=
  (∀ P : Params, ∀ e ∈ [(State.resetOf P).arch.cfg.e1, (State.resetOf P).arch.cfg.e2,
      (State.resetOf P).arch.cfg.e3], e.len = 0 ∧ e.clk = 0 ∧ e.out = 0 ∧ tapSet e = []) ∧
  (∀ P : Params, (State.resetOf P).arch.regs = ⟨[], [], []⟩ ∧ (State.resetOf P).arch.phase = .unbuilt ∧
    (State.resetOf P).arch.cnt = 0 ∧ (State.resetOf P).arch.nrem = 0 ∧
    (State.resetOf P).arch.keyL = zeros P.keyLen ∧ (State.resetOf P).arch.frameL = zeros P.frameLen ∧
    busyOut (State.resetOf P) = false ∧ phaseOut (State.resetOf P) = 0#3) ∧
  State.reset = State.resetOf Params.reference ∧
  Params.reference = ⟨64, 22, 100, 32, 16, 8⟩

/-- 70_reset_and_hazards.md R200: hardware reset makes any state the reset state, at both levels of
description, whatever the state; while it is presented cmd_ready, rsp_valid (even of a response that stands) and
ks_valid are 0, and after it nothing is answered. (That the host's later inputs stay in the list is the model's
choice: log entry 13.) -/
def Obligations.HardwareResetFromAnyState : Prop :=
  ∀ (s : State) (rest : List Input), s.inputs = .reset :: rest →
    step s = .next { State.resetOf s.params with inputs := rest } ∧
    cycle s = { State.resetOf s.params with inputs := rest } ∧
    cmdReady s = false ∧ rspValid s = false ∧ ksValid (emission s) = false ∧ emission s = none ∧
    rspValid (cycle s) = false

/-- The reset state of every instance that exists meets the invariant (10_state.md R33, R34). -/
def Obligations.ResetMeetsTheInvariant : Prop :=
  State.reset.Inv ∧ ∀ P : Params, P.ok = true → (State.resetOf P).Inv

/-! ### Invariants -/

/-- Every step keeps the invariant of 10_state.md R33. -/
def Obligations.StepKeepsTheInvariant : Prop :=
  ∀ s t : State, s.Inv → step s = .next t → t.Inv

/-- Every micro-step keeps it, too. -/
def Obligations.CycleKeepsTheInvariant : Prop :=
  ∀ s : State, s.Inv → (cycle s).Inv

/-- 10_state.md R33, clauses (a) to (e), of every state reached from reset by any inputs of the host, at the
level of ticks. -/
def Obligations.ReachableStatesSatisfyR33 : Prop :=
  ∀ (P : Params) (ins : List Input) (n : Nat), P.ok = true →
    let S := (cycles n { State.resetOf P with inputs := ins }).arch
    (S.phase = .unbuilt ↔ S.cfg.e1.len = 0 ∧ S.cfg.e2.len = 0 ∧ S.cfg.e3.len = 0) ∧
    (S.phase = .unbuilt → S.regs = ⟨[], [], []⟩) ∧
    (S.phase ≠ .unbuilt → wfCfg P S.cfg = true ∧
      S.regs.r1.length = S.cfg.e1.len ∧ S.regs.r2.length = S.cfg.e2.len ∧ S.regs.r3.length = S.cfg.e3.len) ∧
    (S.phase = .unloaded → ∀ i, bitAt S.regs.r1 i = false ∧ bitAt S.regs.r2 i = false ∧ bitAt S.regs.r3 i = false) ∧
    (S.phase = .loadKey → S.cnt ≤ P.keyLen) ∧ (S.phase = .loadFrame → S.cnt ≤ P.frameLen) ∧
    (S.phase = .warmup → S.cnt ≤ P.warmupN) ∧
    (S.phase ≠ .loadKey → S.phase ≠ .loadFrame → S.phase ≠ .warmup → S.cnt = 0) ∧
    (S.nrem ≠ 0 → S.phase = .ready ∨ S.phase = .running) ∧ S.nrem < 2 ^ P.nw ∧
    (S.cnt = 0 ∨ S.nrem = 0) ∧
    (∀ r ∈ [(S.regs.r1, S.cfg.e1.len), (S.regs.r2, S.cfg.e2.len), (S.regs.r3, S.cfg.e3.len)],
      (storage P r.1).length = P.lmax ∧ ∀ i, r.2 ≤ i → bitAt (storage P r.1) i = false)

/-- 10_state.md R25: `wf_entry` and `wf`, clause by clause. -/
def Obligations.WellFormednessIsR25 : Prop :=
  (∀ (P : Params) (e : Entry), wfEntry P e = true ↔
    (1 ≤ e.len ∧ e.len ≤ P.lmax) ∧ e.clk < e.len ∧ e.out < e.len ∧ ∀ t ∈ tapSet e, t < e.len) ∧
  (∀ (P : Params) (c : Cfg), wfCfg P c = true ↔
    wfEntry P c.e1 = true ∧ wfEntry P c.e2 = true ∧ wfEntry P c.e3 = true)

/-! ### The shift register -/

/-- 40_shift_register.md R92 (with FEEDBACK of R91): every element moves one position toward index 0, the
XOR of the tapped bits of the old value and the injected bit enters at the input end, `r[0]` is dropped. -/
def Obligations.Shift1MovesAndInjects : Prop :=
  ∀ (e : Entry) (r : BitSeq) (inj : Bit), r ≠ [] →
    (shift1 e r inj).1.length = r.length ∧
    (∀ i, i + 1 < r.length → bitAt (shift1 e r inj).1 i = bitAt r (i + 1)) ∧
    bitAt (shift1 e r inj).1 (r.length - 1) = Bool.xor (xorAll ((tapSet e).map (bitAt r))) inj ∧
    (shift1 e r inj).2 = bitAt r 0

/-- 40_shift_register.md R93: SHIFT repeats SHIFT1 with nothing injected; its return bit is bit 0 of the
register before the last repetition, and `r[0]` for no repetition. R94: amounts add up. -/
def Obligations.ShiftRepeatsShift1 : Prop :=
  ∀ (e : Entry) (r : BitSeq),
    shiftN e r 0 = (r, bitAt r 0) ∧
    (∀ n, (shiftN e r (n + 1)).1 = (shift1 e (shiftN e r n).1 false).1 ∧
      (shiftN e r (n + 1)).2 = bitAt (shiftN e r n).1 0) ∧
    ∀ a b, (shiftN e r (a + b)).1 = (shiftN e (shiftN e r a).1 b).1 ∧
      (1 ≤ b → (shiftN e r (a + b)).2 = (shiftN e (shiftN e r a).1 b).2)

/-- 40_shift_register.md R96: SHIFT1 is linear. -/
def Obligations.Shift1IsLinear : Prop :=
  ∀ (e : Entry) (r s : BitSeq) (a b : Bit), r.length = s.length →
    (shift1 e (List.zipWith Bool.xor r s) (Bool.xor a b)).1 =
      List.zipWith Bool.xor (shift1 e r a).1 (shift1 e s b).1

/-! ### The majority clock -/

/-- 41_majority_clock.md R100 (the table of MAJ), R103 (ENABLES), R105 (two or three registers are enabled). -/
def Obligations.TwoOrThreeRegistersShift : Prop :=
  (maj false false false = false ∧ maj false false true = false ∧ maj false true false = false ∧
    maj false true true = true ∧ maj true false false = false ∧ maj true false true = true ∧
    maj true true false = true ∧ maj true true true = true) ∧
  ∀ cb : Bits3,
    (enables cb).1 = maj cb.b1 cb.b2 cb.b3 ∧
    ((enables cb).2.b1 = true ↔ cb.b1 = (enables cb).1) ∧
    ((enables cb).2.b2 = true ↔ cb.b2 = (enables cb).1) ∧
    ((enables cb).2.b3 = true ↔ cb.b3 = (enables cb).1) ∧
    (if cb.b1 = cb.b2 ∧ cb.b2 = cb.b3 then
      (enables cb).2.b1.toNat + (enables cb).2.b2.toNat + (enables cb).2.b3.toNat = 3
    else (enables cb).2.b1.toNat + (enables cb).2.b2.toNat + (enables cb).2.b3.toNat = 2)

/-! ### The cipher -/

/-- 42_cipher_fsm.md R112: LOADBIT shifts all three registers whatever their clocking bits and injects the
same bit in each. -/
def Obligations.LoadBitShiftsEveryRegister : Prop :=
  ∀ (c : Cfg) (R : Regs) (k : Bit),
    ∀ x ∈ [(c.e1, R.r1, (loadBit c R k).r1), (c.e2, R.r2, (loadBit c R k).r2), (c.e3, R.r3, (loadBit c R k).r3)],
      x.2.1 ≠ [] →
        x.2.2.length = x.2.1.length ∧
        (∀ i, i + 1 < x.2.1.length → bitAt x.2.2 i = bitAt x.2.1 (i + 1)) ∧
        bitAt x.2.2 (x.2.1.length - 1) = Bool.xor (feedback x.1 x.2.1) k

/-- 42_cipher_fsm.md R113: LOADSEQ is LOADBIT for each element in order, and composes. -/
def Obligations.LoadSeqComposes : Prop :=
  ∀ (c : Cfg) (R : Regs),
    loadSeq c R [] = R ∧
    (∀ (k : Bit) (s : BitSeq), loadSeq c R (k :: s) = loadSeq c (loadBit c R k) s) ∧
    ∀ s t : BitSeq, loadSeq c R (s ++ t) = loadSeq c (loadSeq c R s) t

/-- 42_cipher_fsm.md R116: exactly the registers whose clocking bit is the majority shift, with nothing
injected, and the output is read after the shifts. -/
def Obligations.StepShiftsTheMajority : Prop :=
  ∀ (c : Cfg) (R : Regs),
    let m := maj (bitAt R.r1 c.e1.clk) (bitAt R.r2 c.e2.clk) (bitAt R.r3 c.e3.clk)
    let R' := (cipherStep c R).1
    R'.r1 = (if bitAt R.r1 c.e1.clk = m then (shift1 c.e1 R.r1 false).1 else R.r1) ∧
    R'.r2 = (if bitAt R.r2 c.e2.clk = m then (shift1 c.e2 R.r2 false).1 else R.r2) ∧
    R'.r3 = (if bitAt R.r3 c.e3.clk = m then (shift1 c.e3 R.r3 false).1 else R.r3) ∧
    (cipherStep c R).2 = Bool.xor (Bool.xor (bitAt R'.r1 c.e1.out) (bitAt R'.r2 c.e2.out)) (bitAt R'.r3 c.e3.out)

/-- 42_cipher_fsm.md R122: KS gives n bits, the first produced first, and composes. -/
def Obligations.KeystreamComposes : Prop :=
  ∀ (c : Cfg) (R : Regs) (a b : Nat),
    keystream c 0 R = (R, []) ∧
    (keystream c a R).2.length = a ∧
    (keystream c (a + b) R).1 = (keystream c b (keystream c a R).1).1 ∧
    (keystream c (a + b) R).2 = (keystream c a R).2 ++ (keystream c b (keystream c a R).1).2 ∧
    keystream c (a + 1) R =
      ((cipherStep c (keystream c a R).1).1, (keystream c a R).2 ++ [(cipherStep c (keystream c a R).1).2])

/-- 42_cipher_fsm.md R121: the all-zero key and frame leave the all-zero registers, and every later step
leaves them and puts out 0. -/
def Obligations.AllZeroIsAFixedPoint : Prop :=
  ∀ (P : Params) (c : Cfg), wfCfg P c = true →
    keySetup P c (zeros P.keyLen) (zeros P.frameLen) = construct c ∧
    ∀ n, keystream c n (construct c) = (construct c, zeros n)

/-! ### The combiner -/

/-- 43_combiner.md R141, R142: bit by bit on equal lengths, else LengthMismatch and no result. -/
def Obligations.XorSeqIsBitwise : Prop :=
  ∀ text ks : BitSeq,
    (text.length ≠ ks.length → xorSeq text ks = .error .errLength) ∧
    (text.length = ks.length → ∃ result, xorSeq text ks = .ok result ∧ result.length = text.length ∧
      ∀ i < text.length, bitAt result i = Bool.xor (bitAt text i) (bitAt ks i))

/-- 43_combiner.md R144: involution, commutativity, identity, self-inverse. -/
def Obligations.CombiningTwiceGivesTheText : Prop :=
  ∀ text ks result : BitSeq, xorSeq text ks = .ok result →
    result.length = text.length ∧
    xorSeq result ks = .ok text ∧
    xorSeq ks text = .ok result ∧
    xorSeq text (zeros text.length) = .ok text ∧
    xorSeq text text = .ok (zeros text.length)

/-! ### The sequencer -/

/-- 42_cipher_fsm.md R125: in every busy state one tick is one LOADBIT or one STEP, then SETTLE; only READY and
RUNNING emit. -/
def Obligations.TickIsOneLoadOrOneStep : Prop :=
  ∀ (P : Params) (S : CoreState), busy S = true →
    (S.phase = .loadKey → tick P S =
      (settle P { S with regs := loadBit S.cfg S.regs (bitAt S.keyL S.cnt), cnt := S.cnt + 1 }, none)) ∧
    (S.phase = .loadFrame → tick P S =
      (settle P { S with regs := loadBit S.cfg S.regs (bitAt S.frameL S.cnt), cnt := S.cnt + 1 }, none)) ∧
    (S.phase = .warmup → tick P S =
      (settle P { S with regs := (cipherStep S.cfg S.regs).1, cnt := S.cnt + 1 }, none)) ∧
    (S.phase = .ready ∨ S.phase = .running → tick P S =
      ({ S with regs := (cipherStep S.cfg S.regs).1, nrem := S.nrem - 1, phase := .running },
        some (cipherStep S.cfg S.regs).2))

/-- 42_cipher_fsm.md R126: SETTLE leaves a finished phase at once, passing through phases of length 0, and
touches nothing but the phase and the count. -/
def Obligations.SettleLeavesFinishedPhases : Prop :=
  ∀ (P : Params) (S : CoreState),
    let next := fun p : Phase => { S with phase := p, cnt := 0 }
    (S.phase = .loadKey ∧ S.cnt = P.keyLen → settle P S =
      next (if P.frameLen ≠ 0 then .loadFrame else if P.warmupN ≠ 0 then .warmup else .ready)) ∧
    (S.phase = .loadFrame ∧ S.cnt = P.frameLen → settle P S =
      next (if P.warmupN ≠ 0 then .warmup else .ready)) ∧
    (S.phase = .warmup ∧ S.cnt = P.warmupN → settle P S = next .ready) ∧
    (¬(S.phase = .loadKey ∧ S.cnt = P.keyLen) → ¬(S.phase = .loadFrame ∧ S.cnt = P.frameLen) →
      ¬(S.phase = .warmup ∧ S.cnt = P.warmupN) → settle P S = S)

/-- 70_reset_and_hazards.md R221: from a busy state, with no reset presented, the core is busy until exactly
the ticks left have run, then idle; there are at most as many as the bound says. (That the response stands with
the last tick is the model's choice: log entry 6.) -/
def Obligations.BusyCoreBecomesIdle : Prop :=
  ∀ s : State, s.Inv → busy s.arch = true → (∀ x ∈ s.inputs, x = .quiet) →
    let n := workLeft s.params s.arch
    0 < n ∧ n ≤ max (s.params.keyLen + s.params.frameLen + s.params.warmupN) (2 ^ s.params.nw - 1) ∧
    (∀ k < n, busy (cycles k s).arch = true ∧ workLeft s.params (cycles k s).arch = n - k) ∧
    idle (cycles n s).arch = true ∧ (cycles n s).rsp ≠ none

/-- 42_cipher_fsm.md R130: every transition of the phase, at the level of ticks; nothing else changes it. -/
def Obligations.PhaseTransitionsFollowTheTable : Prop :=
  ∀ s : State, s.Inv →
    let P := s.params
    let S := s.arch
    let T := (cycle s).arch
    let afterFrame := if 0 < P.warmupN then Phase.warmup else Phase.ready
    let afterKey := if 0 < P.frameLen then Phase.loadFrame else afterFrame
    let loading := if 0 < P.keyLen then Phase.loadKey else afterKey
    (nextEvent s = .reset → T.phase = .unbuilt) ∧
    (nextEvent s = .wait → T.phase = S.phase) ∧
    (nextEvent s = .tick →
      (S.phase = .loadKey → S.cnt + 1 = P.keyLen → T.phase = afterKey ∧ T.cnt = 0) ∧
      (S.phase = .loadKey → S.cnt + 1 ≠ P.keyLen → T.phase = .loadKey ∧ T.cnt = S.cnt + 1) ∧
      (S.phase = .loadFrame → S.cnt + 1 = P.frameLen → T.phase = afterFrame ∧ T.cnt = 0) ∧
      (S.phase = .loadFrame → S.cnt + 1 ≠ P.frameLen → T.phase = .loadFrame ∧ T.cnt = S.cnt + 1) ∧
      (S.phase = .warmup → S.cnt + 1 = P.warmupN → T.phase = .ready ∧ T.cnt = 0) ∧
      (S.phase = .warmup → S.cnt + 1 ≠ P.warmupN → T.phase = .warmup ∧ T.cnt = S.cnt + 1) ∧
      (S.phase = .ready ∨ S.phase = .running → T.phase = .running)) ∧
    (∀ p, nextEvent s = .command p →
      (∀ c, decode P p = .init c → T.phase = if wfCfg P c then .unloaded else S.phase) ∧
      (∀ key frame, decode P p = .start key frame →
        T.phase = if S.phase = .unloaded then loading else S.phase) ∧
      ((∀ c, decode P p ≠ .init c) → (∀ key frame, decode P p ≠ .start key frame) → T.phase = S.phase))

/-- 42_cipher_fsm.md R127, R128: the two levels agree. A command presented to an idle core and run tick by
tick gives, after its acceptance and exactly its ticks, the very state one step gives. (That step runs whole
commands and cycle runs ticks is the model's choice: log entry 2.) -/
def Obligations.TicksAgreeWithWholeCommands : Prop :=
  ∀ (s : State) (p : Ports), s.Inv → idle s.arch = true → s.inputs = [.command p] →
    step s = .next (cycles (tickCount (decode s.params p) s + 1) s) ∧
    ∀ k ≤ tickCount (decode s.params p) s, k ≠ 0 → busy (cycles k s).arch = true

/-- 42_cipher_fsm.md R119: from the acceptance of START, READY is reached only after exactly the configured
number of ticks, and until then nothing is emitted, answered or accepted. (That the response stands with the
last tick is the model's choice: log entry 6.) -/
def Obligations.WarmupIsNeverObserved : Prop :=
  ∀ (s : State) (p : Ports) (key frame : BitSeq), s.Inv → idle s.arch = true → s.arch.phase = .unloaded →
    decode s.params p = .start key frame → s.inputs = [.command p] →
    let n := s.params.keyLen + s.params.frameLen + s.params.warmupN
    (∀ k ≤ n, emission (cycles k s) = none) ∧
    (∀ k, 0 < k → k ≤ n → (cycles k s).rsp = none ∧ cmdReady (cycles k s) = false ∧
      (cycles k s).arch.phase ≠ .ready ∧ (cycles k s).arch.phase ≠ .running) ∧
    (cycles (n + 1) s).arch.phase = .ready ∧
    (cycles (n + 1) s).rsp = some ⟨.ok, .ready, .none⟩

/-- 30_encoding.md R73, 42_cipher_fsm.md R119: keystream bits come only from ticks in READY and RUNNING. -/
def Obligations.OnlyReadyAndRunningEmit : Prop :=
  ∀ s : State, emission s ≠ none →
    busy s.arch = true ∧ (s.arch.phase = .ready ∨ s.arch.phase = .running) ∧
    emission s = some (cipherStep s.arch.cfg s.arch.regs).2

/-- 30_encoding.md R71, 10_state.md R29: while the core is busy a presented command is not sampled, whatever
it is, and the only thing that happens is a tick. (That the command stays presented, in the list of inputs, is
the model's choice: log entry 3.) -/
def Obligations.BusyCoreSamplesNoCommand : Prop :=
  ∀ (s : State) (p q : Ports) (rest : List Input), busy s.arch = true → s.inputs = .command p :: rest →
    (cycle s).inputs = s.inputs ∧
    cycle { s with inputs := .command q :: rest } = { cycle s with inputs := .command q :: rest } ∧
    step s = .next (cycle s)

/-! ### The step and exec -/

/-- 44_host_commands.md R150: presented to an idle core, the decoded command is executed, and it is off the
ports; the response of the step before is no longer presented. (The list of inputs and the response field are
the model's choice: log entries 3 and 5.) -/
def Obligations.StepRunsTheDecodedCommand : Prop :=
  (∀ (s : State) (p : Ports) (rest : List Input), idle s.arch = true → s.inputs = .command p :: rest →
    step s = exec (decode s.params p) { s with inputs := rest, rsp := none }) ∧
  (∀ (s : State) (nbits w : Nat), idle s.arch = true →
    step (s.withFetchWord nbits w) =
      exec (decode s.params (Ports.ofBits s.params (wordBits s.params nbits w))) { s with rsp := none }) ∧
  (∀ (s : State), idle s.arch = true → s.inputs = [] → step s = .next { s with rsp := none })

/-- 44_host_commands.md R150 (exec is total), 60_exceptions.md R180 (nothing but the four error responses can
fail): every command and every step answers a next state. (The model's choices in it: reserved opcodes and
commands in a wrong phase are answered, not refused, log entry 7; Fault is empty, log entry 19; exec answers in
busy states too, where no command is accepted, log entry 12.) -/
def Obligations.NothingStopsTheCore : Prop :=
  (∀ (i : Instr) (s : State), ∃ t, exec i s = .next t) ∧ ∀ s : State, ∃ t, step s = .next t

/-- 30_encoding.md R71, R72: a command accepted in an idle state is answered with exactly one response, whose
phase is the phase after the command, and the core is idle again; 30_encoding.md R70, 70_reset_and_hazards.md
R200: rsp_valid and cmd_ready are then 1, but not while the host presents reset. (That the response stands with
the last tick is the model's choice: log entry 6.) -/
def Obligations.EveryCommandIsAnswered : Prop :=
  ∀ (i : Instr) (s : State), idle s.arch = true →
    ∃ t r, exec i s = .next t ∧ t.rsp = some r ∧ r.phase = t.arch.phase ∧ idle t.arch = true ∧
      t.inFlight = none ∧ t.params = s.params ∧ t.inputs = s.inputs ∧
      (rspValid t = true ↔ s.inputs.head? ≠ some .reset) ∧
      (cmdReady t = true ↔ s.inputs.head? ≠ some .reset)

/-- 44_host_commands.md R162: the whole table of statuses and phases after the command; 30_encoding.md R68 and
R69: the codes they have on `rsp_status`, `rsp_phase` and `phase_o`. -/
def Obligations.CommandAgainstPhaseTable : Prop :=
  (∀ (i : Instr) (s : State), idle s.arch = true → i.wf s.params = true →
    ∃ t r, exec i s = .next t ∧ t.rsp = some r ∧ r.status = summaryStatus s.params s.arch.phase i ∧
      t.arch.phase = summaryPhase s.params s.arch.phase i ∧ r.phase = t.arch.phase ∧
      r.statusOut =
        (match summaryStatus s.params s.arch.phase i with
          | .ok => 0#3 | .errConfig => 1#3 | .errLength => 2#3 | .errPhase => 3#3 | .errOpcode => 4#3) ∧
      (t.arch.phase = .unbuilt ∧ r.phaseOut = 0#3 ∨ t.arch.phase = .unloaded ∧ r.phaseOut = 1#3 ∨
        t.arch.phase = .ready ∧ r.phaseOut = 5#3 ∨ t.arch.phase = .running ∧ r.phaseOut = 6#3) ∧
      phaseOut t = r.phaseOut) ∧
  ∀ s : State, phaseOut s =
    match s.arch.phase with
    | .unbuilt => 0#3 | .unloaded => 1#3 | .loadKey => 2#3 | .loadFrame => 3#3 | .warmup => 4#3
    | .ready => 5#3 | .running => 6#3

/-- 60_exceptions.md R186: every error is precise: the state after the command is the state before it. -/
def Obligations.ErrorsArePrecise : Prop :=
  ∀ (i : Instr) (s t : State) (r : Response), idle s.arch = true → exec i s = .next t → t.rsp = some r →
    r.status ≠ .ok →
    t.arch = s.arch ∧ r.phase = s.arch.phase ∧ r.payload = .none ∧
    r.lenOut = 0 ∧ r.dataOut = 0 ∧ r.snapOut s.params = 0

/-- 10_state.md R24, 20_memory.md R52: `cfg` changes only by hardware reset and by a successful INIT, which
at the same moment zeroes the registers. -/
def Obligations.OnlyInitWritesTheConfiguration : Prop :=
  ∀ s : State, (cycle s).arch.cfg ≠ s.arch.cfg →
    nextEvent s = .reset ∨
    ∃ p c, nextEvent s = .command p ∧ decode s.params p = .init c ∧ wfCfg s.params c = true ∧
      (cycle s).arch.cfg = c ∧ (cycle s).arch.regs = construct c ∧ (cycle s).arch.phase = .unloaded

/-- 10_state.md R30: the key and frame latches are written only by START and by hardware reset. -/
def Obligations.OnlyStartWritesTheLatches : Prop :=
  ∀ s : State, (cycle s).arch.keyL ≠ s.arch.keyL ∨ (cycle s).arch.frameL ≠ s.arch.frameL →
    nextEvent s = .reset ∨
    ∃ p key frame, nextEvent s = .command p ∧ decode s.params p = .start key frame ∧
      s.arch.phase = .unloaded ∧ (cycle s).arch.keyL = key ∧ (cycle s).arch.frameL = frame

/-- 10_state.md R23: the registers change only by hardware reset, by INIT, and by ticks. -/
def Obligations.OnlyInitAndTicksWriteTheRegisters : Prop :=
  ∀ s : State, (cycle s).arch.regs ≠ s.arch.regs →
    nextEvent s = .reset ∨ nextEvent s = .tick ∨
    ∃ p c, nextEvent s = .command p ∧ decode s.params p = .init c ∧ wfCfg s.params c = true

/-- 00_scope.md R3, R6: the parameters never change, and what a command does to the core and answers is a
function of the parameters, the core's state and the command alone. -/
def Obligations.CommandsAreFunctionsOfTheCoreState : Prop :=
  (∀ s : State, (cycle s).params = s.params) ∧
  ∀ (i : Instr) (s s' t t' : State), idle s.arch = true → s'.params = s.params → s'.arch = s.arch →
    exec i s = .next t → exec i s' = .next t' → t'.arch = t.arch ∧ t'.rsp = t.rsp

/-- 10_state.md R32: no response carries one of the busy phases. -/
def Obligations.ResponsesShowOnlyIdlePhases : Prop :=
  ∀ (s t : State) (r : Response), s.Inv → step s = .next t → t.rsp = some r →
    r.phase = .unbuilt ∨ r.phase = .unloaded ∨ r.phase = .ready ∨ r.phase = .running

/-! ### The commands -/

/-- 44_host_commands.md R159, in every idle state. -/
def Obligations.StatusReportsThePhase : Prop :=
  ∀ s : State, idle s.arch = true → exec .status s =
    .next { s with rsp := some ⟨.ok, s.arch.phase, .none⟩, inFlight := none }

/-- 44_host_commands.md R151, 60_exceptions.md R181: in every idle state INIT builds everything or nothing. -/
def Obligations.InitConstructs : Prop :=
  ∀ (c : Cfg) (s : State), idle s.arch = true →
    (wfCfg s.params c = true → exec (.init c) s = .next { s with
      arch := { s.arch with
        cfg := c, regs := ⟨zeros c.e1.len, zeros c.e2.len, zeros c.e3.len⟩, phase := .unloaded, cnt := 0, nrem := 0 }
      rsp := some ⟨.ok, .unloaded, .none⟩, inFlight := none }) ∧
    (wfCfg s.params c = false → exec (.init c) s = .next { s with
      rsp := some ⟨.errConfig, s.arch.phase, .none⟩, inFlight := none })

/-- 44_host_commands.md R152: in UNLOADED, START latches, loads the key, then the frame, warms up and answers
in READY; in every other phase it is a PhaseError. -/
def Obligations.StartLoadsAndWarmsUp : Prop :=
  ∀ (key frame : BitSeq) (s : State), idle s.arch = true → key.length = s.params.keyLen →
    frame.length = s.params.frameLen →
    (s.arch.phase = .unloaded → exec (.start key frame) s = .next { s with
      arch := { s.arch with
        regs := warm s.arch.cfg s.params.warmupN (loadSeq s.arch.cfg (loadSeq s.arch.cfg s.arch.regs key) frame)
        phase := .ready, cnt := 0, keyL := key, frameL := frame }
      rsp := some ⟨.ok, .ready, .none⟩, inFlight := none }) ∧
    (s.arch.phase ≠ .unloaded → exec (.start key frame) s = .next { s with
      rsp := some ⟨.errPhase, s.arch.phase, .none⟩, inFlight := none })

/-- 00_scope.md R7, 60_exceptions.md R181: a key or frame of another length, which no port can present, is a
ConfigError at START in UNLOADED; in every other idle phase the phase check comes first (60_exceptions.md R187;
log entry 8). -/
def Obligations.StartOfWrongLengthIsConfigError : Prop :=
  ∀ (key frame : BitSeq) (s : State), idle s.arch = true →
    key.length ≠ s.params.keyLen ∨ frame.length ≠ s.params.frameLen →
    (s.arch.phase = .unloaded → exec (.start key frame) s = .next { s with
      rsp := some ⟨.errConfig, s.arch.phase, .none⟩, inFlight := none }) ∧
    (s.arch.phase ≠ .unloaded → exec (.start key frame) s = .next { s with
      rsp := some ⟨.errPhase, s.arch.phase, .none⟩, inFlight := none })

/-- 42_cipher_fsm.md R120, R216 of 70_reset_and_hazards.md: after INIT and START the registers are KEYSETUP
of the configuration, key and frame, and the keystream is KS of them, whatever was before. -/
def Obligations.KeySetupForgetsThePast : Prop :=
  ∀ (c : Cfg) (key frame : BitSeq) (n : Nat) (s : State), idle s.arch = true → wfCfg s.params c = true →
    key.length = s.params.keyLen → frame.length = s.params.frameLen →
    ∃ t r, execAll [.init c, .start key frame, .nextn n] s = .next t ∧ t.rsp = some r ∧
      t.arch.cfg = c ∧ t.arch.regs = (keystream c n (keySetup s.params c key frame)).1 ∧
      r.status = .ok ∧ r.payload = .keystream (keystream c n (keySetup s.params c key frame)).2

/-- 44_host_commands.md R153. -/
def Obligations.NextProducesOneBit : Prop :=
  ∀ s : State, idle s.arch = true →
    (s.arch.phase = .ready ∨ s.arch.phase = .running → exec .next s = .next { s with
      arch := { s.arch with regs := (cipherStep s.arch.cfg s.arch.regs).1, phase := .running, nrem := 0 }
      rsp := some ⟨.ok, .running, .bit (cipherStep s.arch.cfg s.arch.regs).2⟩, inFlight := none }) ∧
    (s.arch.phase = .unbuilt ∨ s.arch.phase = .unloaded → exec .next s = .next { s with
      rsp := some ⟨.errPhase, s.arch.phase, .none⟩, inFlight := none })

/-- 44_host_commands.md R154. -/
def Obligations.NextnProducesKeystream : Prop :=
  ∀ (n : Nat) (s : State), idle s.arch = true →
    (s.arch.phase = .ready ∨ s.arch.phase = .running → 1 ≤ n → exec (.nextn n) s = .next { s with
      arch := { s.arch with regs := (keystream s.arch.cfg n s.arch.regs).1, phase := .running, nrem := 0 }
      rsp := some ⟨.ok, .running, .keystream (keystream s.arch.cfg n s.arch.regs).2⟩, inFlight := none }) ∧
    (s.arch.phase = .ready ∨ s.arch.phase = .running → exec (.nextn 0) s = .next { s with
      rsp := some ⟨.ok, s.arch.phase, .keystream []⟩, inFlight := none }) ∧
    (s.arch.phase = .unbuilt ∨ s.arch.phase = .unloaded → exec (.nextn n) s = .next { s with
      rsp := some ⟨.errPhase, s.arch.phase, .none⟩, inFlight := none })

/-- 44_host_commands.md R154: NEXTN gives the same bits and the same final state as that many NEXT. -/
def Obligations.NextnIsRepeatedNext : Prop :=
  ∀ (n : Nat) (s : State), idle s.arch = true → s.arch.phase = .ready ∨ s.arch.phase = .running →
    (∃ t t', execAll (List.replicate n .next) s = .next t ∧ exec (.nextn n) s = .next t' ∧ t'.arch = t.arch) ∧
    ∃ t u u' z ks, exec .next s = .next t ∧ exec (.nextn n) t = .next u ∧ exec (.nextn (n + 1)) s = .next u' ∧
      t.rsp = some ⟨.ok, .running, .bit z⟩ ∧ u.rsp = some ⟨.ok, .running, .keystream ks⟩ ∧
      u'.rsp = some ⟨.ok, .running, .keystream (z :: ks)⟩

/-- 44_host_commands.md R155 (COMBINE), in every idle state, with the operands of 43_combiner.md R143. -/
def Obligations.CombineXorsItsOperands : Prop :=
  ∀ (tlen klen : Nat) (text ks : BitSeq) (s : State), idle s.arch = true →
    tlen ≤ text.length → klen ≤ ks.length →
    (tlen = klen → exec (.combine tlen klen text ks) s = .next { s with
      rsp := some ⟨.ok, s.arch.phase, .text (List.zipWith Bool.xor (text.take tlen) (ks.take klen))⟩
      inFlight := none }) ∧
    (tlen ≠ klen → exec (.combine tlen klen text ks) s = .next { s with
      rsp := some ⟨.errLength, s.arch.phase, .none⟩, inFlight := none })

/-- 44_host_commands.md R156, R157: in every idle state ENCRYPT and DECRYPT are COMBINE under their own
opcodes. -/
def Obligations.EncryptAndDecryptXorTheirOperands : Prop :=
  ∀ (tlen klen : Nat) (text ks : BitSeq) (s : State), idle s.arch = true →
    tlen ≤ text.length → klen ≤ ks.length →
    (tlen = klen →
      exec (.encrypt tlen klen text ks) s = .next { s with
        rsp := some ⟨.ok, s.arch.phase, .text (List.zipWith Bool.xor (text.take tlen) (ks.take klen))⟩
        inFlight := none } ∧
      exec (.decrypt tlen klen text ks) s = .next { s with
        rsp := some ⟨.ok, s.arch.phase, .text (List.zipWith Bool.xor (text.take tlen) (ks.take klen))⟩
        inFlight := none }) ∧
    (tlen ≠ klen →
      exec (.encrypt tlen klen text ks) s = .next { s with
        rsp := some ⟨.errLength, s.arch.phase, .none⟩, inFlight := none } ∧
      exec (.decrypt tlen klen text ks) s = .next { s with
        rsp := some ⟨.errLength, s.arch.phase, .none⟩, inFlight := none })

/-- 44_host_commands.md R157: in every idle state `DECRYPT(ENCRYPT(p, ks), ks) = p`, whatever stands on the
unused bits. -/
def Obligations.DecryptInvertsEncrypt : Prop :=
  ∀ (n : Nat) (text ks pad : BitSeq) (s : State), idle s.arch = true →
    n ≤ text.length → n ≤ ks.length →
    ∃ t u cipher, exec (.encrypt n n text ks) s = .next t ∧ t.rsp = some ⟨.ok, s.arch.phase, .text cipher⟩ ∧
      exec (.decrypt n n (cipher ++ pad) ks) t = .next u ∧
      u.rsp = some ⟨.ok, s.arch.phase, .text (text.take n)⟩

/-- 43_combiner.md R143: the result of COMBINE, ENCRYPT and DECRYPT on the response ports. -/
def Obligations.CombinerResponsePorts : Prop :=
  ∀ (n : Nat) (text ks : BitSeq) (s : State), idle s.arch = true → n ≤ text.length → n ≤ ks.length →
    ∀ i ∈ [Instr.combine n n text ks, .encrypt n n text ks, .decrypt n n text ks],
      ∃ t r, exec i s = .next t ∧ t.rsp = some r ∧ r.statusOut = 0#3 ∧ r.lenOut = n ∧
        ∀ j, r.dataOut.testBit j = if j < n then Bool.xor (bitAt text j) (bitAt ks j) else false

/-- 44_host_commands.md R160: in every idle state SNAP returns the registers and writes nothing; on `rsp_snap`
register j occupies bits `[j*LMAX-1 : (j-1)*LMAX]`, zero-extended. -/
def Obligations.SnapReturnsTheRegisters : Prop :=
  ∀ s : State, idle s.arch = true →
    exec .snap s = .next { s with
      rsp := some ⟨.ok, s.arch.phase, .snapshot s.arch.regs.r1 s.arch.regs.r2 s.arch.regs.r3⟩
      inFlight := none } ∧
    (s.Inv →
      let v := Response.snapOut s.params
        ⟨.ok, s.arch.phase, .snapshot s.arch.regs.r1 s.arch.regs.r2 s.arch.regs.r3⟩
      v % 2 ^ s.params.lmax = natOfBits s.arch.regs.r1 ∧
      v / 2 ^ s.params.lmax % 2 ^ s.params.lmax = natOfBits s.arch.regs.r2 ∧
      v / 2 ^ (2 * s.params.lmax) = natOfBits s.arch.regs.r3)

/-- 30_encoding.md R63, 60_exceptions.md R184: in every idle state every reserved opcode is answered ERR_OPCODE, and
no state of the core changes. -/
def Obligations.ReservedOpcodesAnswerAnError : Prop :=
  ∀ i ∈ [Instr.reserved9, .reservedA, .reservedB, .reservedC, .reservedD, .reservedE, .reservedF],
    ∀ s : State, idle s.arch = true → exec i s = .next { s with
      rsp := some ⟨.errOpcode, s.arch.phase, .none⟩, inFlight := none }

/-- 70_reset_and_hazards.md R218, 20_memory.md R48: a STATUS or SNAP, or a combiner command, put before any
other command changes neither what that command does nor its response. -/
def Obligations.DiagnosticsChangeNothing : Prop :=
  ∀ (d i : Instr) (s u t t' : State), idle s.arch = true →
    (d = .status ∨ d = .snap ∨ ∃ tlen klen text ks,
      d = .combine tlen klen text ks ∨ d = .encrypt tlen klen text ks ∨ d = .decrypt tlen klen text ks) →
    exec d s = .next u → exec i s = .next t → exec i u = .next t' →
    u.arch = s.arch ∧ t'.arch = t.arch ∧ t'.rsp = t.rsp

/-! ### Pseudo-commands -/

/-- 30_encoding.md R75: NEWCIPHER leaves KEYSETUP in READY, and with a malformed configuration it does
nothing but answer ConfigError; REKEY does the same from any idle state. (The pseudo-commands as functions are
the model's choice: log entry 16.) -/
def Obligations.NewCipherReturnsAReadyCipher : Prop :=
  ∀ (c : Cfg) (key frame : BitSeq) (s : State), idle s.arch = true →
    key.length = s.params.keyLen → frame.length = s.params.frameLen →
    (wfCfg s.params c = true → ∃ t, newCipher c key frame s = .next t ∧ rekey c key frame s = .next t ∧
      t.arch.phase = .ready ∧ t.arch.cfg = c ∧ t.arch.regs = keySetup s.params c key frame ∧
      t.rsp = some ⟨.ok, .ready, .none⟩) ∧
    (wfCfg s.params c = false → ∃ t, newCipher c key frame s = .next t ∧ t.arch = s.arch ∧
      t.rsp = some ⟨.errConfig, s.arch.phase, .none⟩)

/-- 30_encoding.md R75: CRYPT answers with the text XORed with the next n keystream bits. (The
pseudo-command as a function is the model's choice: log entry 16.) -/
def Obligations.CryptXorsTheKeystream : Prop :=
  ∀ (n : Nat) (text : BitSeq) (s : State), idle s.arch = true →
    s.arch.phase = .ready ∨ s.arch.phase = .running → n ≤ s.params.cmax → text.length = s.params.cmax →
    ∃ t r, crypt n text s = .next t ∧ t.rsp = some r ∧ r.status = .ok ∧
      t.arch.regs = (keystream s.arch.cfg n s.arch.regs).1 ∧
      r.payload = .text (List.zipWith Bool.xor (text.take n) (keystream s.arch.cfg n s.arch.regs).2)
end

