-- ==== Sys2Proof/Laws/Encoding.lean ====
section
/-! SUPPORT. Vectors, slices, entries, presentations: the pieces of the round trips. -/

namespace Sys2Proof

@[simp] theorem bitsOfNat_length (w v : Nat) : (bitsOfNat w v).length = w := by
  induction w generalizing v with
  | zero => rfl
  | succ w ih => simp [bitsOfNat, ih]

/-- A sequence carried on a vector and read back is the same sequence. -/
theorem bitsOfNat_natOfBits {w : Nat} {s : BitSeq} (h : s.length = w) : bitsOfNat w (natOfBits s) = s := by
  induction s generalizing w with
  | nil => subst h; rfl
  | cons b s ih =>
    subst h
    have hb : b.toNat < 2 := by cases b <;> decide
    have hmod : (b.toNat + 2 * natOfBits s) % 2 = b.toNat := by omega
    have hdiv : (b.toNat + 2 * natOfBits s) / 2 = natOfBits s := by omega
    rw [List.length_cons, natOfBits, bitsOfNat, hmod, hdiv, ih rfl]
    cases b <;> rfl

/-- A number that fits a vector is read back as itself. -/
theorem natOfBits_bitsOfNat {w v : Nat} (h : v < 2 ^ w) : natOfBits (bitsOfNat w v) = v := by
  induction w generalizing v with
  | zero => simp at h; subst h; rfl
  | succ w ih =>
    have h2 : v / 2 < 2 ^ w := by rw [Nat.pow_succ] at h; omega
    rw [bitsOfNat, natOfBits, ih h2]
    rcases Nat.mod_two_eq_zero_or_one v with hm | hm <;> simp [hm] <;> omega

theorem natOfBits_lt (s : BitSeq) : natOfBits s < 2 ^ s.length := by
  induction s with
  | nil => decide
  | cons b s ih =>
    have hb : b.toNat < 2 := by cases b <;> decide
    rw [natOfBits, List.length_cons, Nat.pow_succ]
    omega

/-- The part of a concatenation that begins where its first part ends. -/
theorem slice_append_right {a b : BitSeq} {lo : Nat} (w : Nat) (h : a.length ≤ lo) :
    slice (a ++ b) lo w = slice b (lo - a.length) w := by
  rw [slice, slice, List.drop_append, List.drop_eq_nil_of_le h, List.nil_append]

/-- The first part of a concatenation. -/
theorem slice_append_left {a : BitSeq} (b : BitSeq) {w : Nat} (h : a.length = w) :
    slice (a ++ b) 0 w = a := by
  subst h
  simp [slice]

theorem slice_full {a : BitSeq} {w : Nat} (h : a.length = w) : slice a 0 w = a := by
  subst h
  simp [slice]

theorem slice_length_le (v : BitSeq) (lo w : Nat) : (slice v lo w).length ≤ w := by
  simp [slice]

theorem natOfBits_slice_lt (v : BitSeq) (lo w : Nat) : natOfBits (slice v lo w) < 2 ^ w :=
  Nat.lt_of_lt_of_le (natOfBits_lt _) (Nat.pow_le_pow_right (by decide) (slice_length_le v lo w))

/-! ### Entries and configurations -/

@[simp] theorem encodeEntry_length (P : Params) (e : Entry) (h : e.taps.length = P.lmax) :
    (encodeEntry P e).length = P.cew := by
  simp [encodeEntry, Params.cew, h]
  omega

/-- Every legal encoding of an entry is read back. -/
theorem decodeEntry_encodeEntry (P : Params) (e : Entry) (h : e.fits P = true) :
    decodeEntry P (encodeEntry P e) = e := by
  simp only [Entry.fits, Bool.and_eq_true, decide_eq_true_eq] at h
  obtain ⟨⟨⟨hl, hc⟩, ho⟩, ht⟩ := h
  have h1 : slice (encodeEntry P e) 0 P.lenw = bitsOfNat P.lenw e.len := by
    rw [encodeEntry, List.append_assoc, List.append_assoc, slice_append_left _ (by simp)]
  have h2 : slice (encodeEntry P e) P.lenw P.idxw = bitsOfNat P.idxw e.clk := by
    rw [encodeEntry, List.append_assoc, List.append_assoc, slice_append_right _ (by simp)]
    simpa using slice_append_left _ (by simp)
  have h3 : slice (encodeEntry P e) (P.lenw + P.idxw) P.idxw = bitsOfNat P.idxw e.out := by
    rw [encodeEntry, List.append_assoc, slice_append_right _ (by simp)]
    simpa using slice_append_left _ (by simp)
  have h4 : slice (encodeEntry P e) (P.lenw + 2 * P.idxw) P.lmax = e.taps := by
    rw [encodeEntry, slice_append_right _ (by simp; omega)]
    have : P.lenw + 2 * P.idxw - (bitsOfNat P.lenw e.len ++ bitsOfNat P.idxw e.clk ++
        bitsOfNat P.idxw e.out).length = 0 := by simp; omega
    rw [this, slice_full ht]
  rw [decodeEntry, h1, h2, h3, h4, natOfBits_bitsOfNat hl, natOfBits_bitsOfNat hc, natOfBits_bitsOfNat ho]

theorem encodeCfg_length (P : Params) (c : Cfg) (h : c.fits P = true) :
    (encodeCfg P c).length = 3 * P.cew := by
  simp only [Cfg.fits, Entry.fits, Bool.and_eq_true, decide_eq_true_eq] at h
  rw [encodeCfg, List.length_append, List.length_append, encodeEntry_length P _ h.1.1.2,
    encodeEntry_length P _ h.1.2.2, encodeEntry_length P _ h.2.2]
  omega

theorem decodeCfg_encodeCfg (P : Params) (c : Cfg) (h : c.fits P = true) :
    decodeCfg P (encodeCfg P c) = c := by
  simp only [Cfg.fits, Bool.and_eq_true] at h
  obtain ⟨⟨h1, h2⟩, h3⟩ := h
  have len : ∀ e : Entry, e.fits P = true → (encodeEntry P e).length = P.cew := by
    intro e he
    simp only [Entry.fits, Bool.and_eq_true, decide_eq_true_eq] at he
    exact encodeEntry_length P e he.2
  have s1 : slice (encodeCfg P c) 0 P.cew = encodeEntry P c.e1 := by
    rw [encodeCfg, List.append_assoc, slice_append_left _ (len _ h1)]
  have s2 : slice (encodeCfg P c) P.cew P.cew = encodeEntry P c.e2 := by
    rw [encodeCfg, List.append_assoc, slice_append_right _ (len _ h1).le, len _ h1, Nat.sub_self,
      slice_append_left _ (len _ h2)]
  have s3 : slice (encodeCfg P c) (2 * P.cew) P.cew = encodeEntry P c.e3 := by
    have hl : (encodeEntry P c.e1 ++ encodeEntry P c.e2).length = 2 * P.cew := by
      rw [List.length_append, len _ h1, len _ h2]; omega
    rw [encodeCfg, slice_append_right _ hl.le, hl, Nat.sub_self, slice_full (len _ h3)]
  rw [decodeCfg, s1, s2, s3, decodeEntry_encodeEntry P _ h1, decodeEntry_encodeEntry P _ h2,
    decodeEntry_encodeEntry P _ h3]

end Sys2Proof
end

