-- ==== Sys2Proof/Laws/Primitives.lean ====
section
/-! SUPPORT. What the pure functions do: bits, shifts, steps, keystream, combiner. -/

namespace Sys2Proof.Machine

open Sys2Proof

/-! ### Bits and sequences -/

@[simp] theorem zeros_length (n : Nat) : (zeros n).length = n := by simp [zeros]

@[simp] theorem xorAll_nil : xorAll [] = false := rfl

@[simp] theorem xorAll_cons (b : Bit) (s : BitSeq) : xorAll (b :: s) = Bool.xor b (xorAll s) := rfl

theorem xorAll_append (s t : BitSeq) : xorAll (s ++ t) = Bool.xor (xorAll s) (xorAll t) := by
  induction s with
  | nil => simp
  | cons b s ih => simp [ih]

@[simp] theorem bitAt_zeros (n i : Nat) : bitAt (zeros n) i = false := by
  simp [bitAt, zeros, List.getD_eq_getElem?_getD, List.getElem?_replicate]
  split <;> rfl

@[simp] theorem bitAt_cons_zero (b : Bit) (s : BitSeq) : bitAt (b :: s) 0 = b := rfl

@[simp] theorem bitAt_cons_succ (b : Bit) (s : BitSeq) (i : Nat) : bitAt (b :: s) (i + 1) = bitAt s i := rfl

/-! ### FEEDBACK -/

/-- Masking every bit and XORing is XORing over the members of the mask, counted from an offset. -/
theorem xorAll_zipWith_mask (mask r : BitSeq) (f : Nat → Bit) (o : Nat)
    (hf : ∀ i, f (o + i) = bitAt r i) :
    xorAll (List.zipWith Bool.and mask r) =
      xorAll (((List.range' o mask.length).filter fun i => bitAt mask (i - o)).map f) := by
  induction mask generalizing r o with
  | nil => simp
  | cons b mask ih =>
    have hshift : ∀ i ∈ List.range' (o + 1) mask.length, bitAt (b :: mask) (i - o) = bitAt mask (i - (o + 1)) := by
      intro i hi
      have : o + 1 ≤ i := (List.mem_range'_1.1 hi).1
      obtain ⟨k, rfl⟩ := Nat.exists_eq_add_of_le this
      rw [show o + 1 + k - o = k + 1 by omega, show o + 1 + k - (o + 1) = k by omega, bitAt_cons_succ]
    cases r with
    | nil =>
      have hz : ∀ i, f (o + i) = false := fun i => by rw [hf]; simp [bitAt]
      have h0 : ∀ i ∈ List.range' o (b :: mask).length, f i = false := by
        intro i hi
        obtain ⟨k, rfl⟩ := Nat.exists_eq_add_of_le (List.mem_range'_1.1 hi).1
        exact hz k
      have : ∀ l : List Nat, (∀ i ∈ l, f i = false) → xorAll (l.map f) = false := by
        intro l hl
        induction l with
        | nil => rfl
        | cons i l ihl => simp [hl i (by simp), ihl fun j hj => hl j (by simp [hj])]
      rw [List.zipWith_nil_right, this _ fun i hi => h0 i (List.mem_filter.1 hi).1]
      rfl
    | cons a r =>
      have hf0 : f o = a := by simpa using hf 0
      have hf1 : ∀ i, f (o + 1 + i) = bitAt r i := fun i => by
        rw [show o + 1 + i = o + (i + 1) by omega, hf, bitAt_cons_succ]
      rw [List.zipWith_cons_cons, xorAll_cons, ih r (o + 1) hf1, List.length_cons, List.range'_succ,
        List.filter_cons, List.filter_congr hshift]
      cases b <;> simp [hf0]

/-- FEEDBACK as 40_shift_register.md R91 writes it: the XOR of `r[t]` over the members t of the tap set. -/
theorem feedback_eq_xor_over_tapSet (e : Entry) (r : BitSeq) :
    feedback e r = xorAll ((tapSet e).map (bitAt r)) := by
  rw [feedback, xorAll_zipWith_mask e.taps r (bitAt r) 0 (by simp), tapSet, List.range_eq_range']
  simp

@[simp] theorem feedback_zeros (e : Entry) (n : Nat) : feedback e (zeros n) = false := by
  unfold feedback
  generalize e.taps = mask
  induction mask generalizing n with
  | nil => rfl
  | cons b mask ih =>
    cases n with
    | zero => rfl
    | succ n => simpa [zeros, List.replicate_succ] using ih n

/-! ### SHIFT1 -/

@[simp] theorem shift1_length (e : Entry) (r : BitSeq) (inj : Bit) : (shift1 e r inj).1.length = r.length := by
  simp [shift1]

/-- Every element moves one position toward index 0. -/
theorem shift1_moves (e : Entry) (r : BitSeq) (inj : Bit) (i : Nat) (h : i + 1 < r.length) :
    bitAt (shift1 e r inj).1 i = bitAt r (i + 1) := by
  simp [shift1, bitAt, List.getD_eq_getElem?_getD, List.getElem?_append_left h]

/-- The new bit stands at the input end. -/
theorem shift1_new_bit (e : Entry) (r : BitSeq) (inj : Bit) (h : r ≠ []) :
    bitAt (shift1 e r inj).1 (r.length - 1) = Bool.xor (feedback e r) inj := by
  have : r.length - 1 + 1 = r.length := Nat.sub_add_cancel (List.length_pos_iff.2 h)
  simp [shift1, bitAt, List.getD_eq_getElem?_getD, this]

@[simp] theorem shift1_zeros (e : Entry) (n : Nat) : (shift1 e (zeros n) false).1 = zeros n := by
  rw [shift1, feedback_zeros]
  cases n with
  | zero => rfl
  | succ n => simp [zeros, List.replicate_succ, ← List.replicate_succ']

@[simp] theorem shiftIf_length (en : Bit) (e : Entry) (r : BitSeq) : (shiftIf en e r).length = r.length := by
  unfold shiftIf
  split <;> simp

@[simp] theorem shiftIf_zeros (en : Bit) (e : Entry) (n : Nat) : shiftIf en e (zeros n) = zeros n := by
  unfold shiftIf
  split <;> simp

/-! ### MAJ and ENABLES -/

theorem maj_eq_or (a b c : Bit) : maj a b c = (a && b || a && c || b && c) := by
  cases a <;> cases b <;> cases c <;> rfl

theorem maj_eq_xor (a b c : Bit) :
    maj a b c = Bool.xor (Bool.xor (a && b) (a && c)) (b && c) := by
  cases a <;> cases b <;> cases c <;> rfl

/-! ### LOADBIT, LOADSEQ, STEP, WARM, KS -/

/-- The lengths of the three registers. -/
abbrev Regs.lengths (R : Regs) : Nat × Nat × Nat := (R.r1.length, R.r2.length, R.r3.length)

@[simp] theorem loadBit_lengths (c : Cfg) (R : Regs) (k : Bit) : (loadBit c R k).lengths = R.lengths := by
  simp [loadBit, Regs.lengths]

@[simp] theorem stepRegs_lengths (c : Cfg) (R : Regs) : (stepRegs c R).lengths = R.lengths := by
  simp [stepRegs, Regs.lengths]

@[simp] theorem construct_lengths (c : Cfg) : (construct c).lengths = (c.e1.len, c.e2.len, c.e3.len) := by
  simp [construct, Regs.lengths]

@[simp] theorem loadSeq_nil (c : Cfg) (R : Regs) : loadSeq c R [] = R := rfl

@[simp] theorem loadSeq_cons (c : Cfg) (R : Regs) (k : Bit) (s : BitSeq) :
    loadSeq c R (k :: s) = loadSeq c (loadBit c R k) s := rfl

/-- The all-zero registers are a fixed point of loading a 0. -/
@[simp] theorem loadBit_construct (c : Cfg) : loadBit c (construct c) false = construct c := by
  simp [loadBit, construct]

/-- The all-zero registers are a fixed point of a step. -/
@[simp] theorem stepRegs_construct (c : Cfg) : stepRegs c (construct c) = construct c := by
  simp [stepRegs, construct]

@[simp] theorem outputBit_construct (c : Cfg) : outputBit c (construct c) = false := by
  simp [outputBit, construct]

@[simp] theorem warm_zero (c : Cfg) (R : Regs) : warm c 0 R = R := rfl

@[simp] theorem warm_succ (c : Cfg) (n : Nat) (R : Regs) : warm c (n + 1) R = warm c n (cipherStep c R).1 := rfl

@[simp] theorem keystream_zero (c : Cfg) (R : Regs) : keystream c 0 R = (R, []) := rfl

theorem keystream_succ (c : Cfg) (n : Nat) (R : Regs) :
    keystream c (n + 1) R =
      ((keystream c n (cipherStep c R).1).1, (cipherStep c R).2 :: (keystream c n (cipherStep c R).1).2) := rfl

@[simp] theorem keystream_length (c : Cfg) (n : Nat) (R : Regs) : (keystream c n R).2.length = n := by
  induction n generalizing R with
  | zero => rfl
  | succ n ih => simp [keystream_succ, ih]

/-! ### XORSEQ -/

theorem xorSeq_of_length_eq {text ks : BitSeq} (h : text.length = ks.length) :
    xorSeq text ks = .ok (List.zipWith Bool.xor text ks) := by simp [xorSeq, h]

theorem xorSeq_of_length_ne {text ks : BitSeq} (h : text.length ≠ ks.length) :
    xorSeq text ks = .error .errLength := by simp [xorSeq, h]

end Sys2Proof.Machine
end

