-- ==== Sys2Proof/Laws/State.lean ====
section
/-! SUPPORT. One lemma per field per update of State, so that no later proof unfolds a record update. -/

namespace Sys2Proof.Machine

open Sys2Proof

variable (s : State) (st : Status) (pl : Payload)

/-! ### respond -/

@[simp] theorem respond_params : (respond st pl s).params = s.params := rfl
@[simp] theorem respond_arch : (respond st pl s).arch = s.arch := rfl
@[simp] theorem respond_inFlight : (respond st pl s).inFlight = none := rfl
@[simp] theorem respond_rsp : (respond st pl s).rsp = some ⟨st, s.arch.phase, pl⟩ := rfl
@[simp] theorem respond_inputs : (respond st pl s).inputs = s.inputs := rfl

/-! ### raiseError -/

@[simp] theorem raiseError_params : (raiseError st s).params = s.params := rfl
@[simp] theorem raiseError_arch : (raiseError st s).arch = s.arch := rfl
@[simp] theorem raiseError_inFlight : (raiseError st s).inFlight = none := rfl
@[simp] theorem raiseError_rsp : (raiseError st s).rsp = some ⟨st, s.arch.phase, .none⟩ := rfl
@[simp] theorem raiseError_inputs : (raiseError st s).inputs = s.inputs := rfl

/-! ### takeInput, passEdge, hardReset, withFetchWord -/

@[simp] theorem takeInput_params : (takeInput s).params = s.params := rfl
@[simp] theorem takeInput_arch : (takeInput s).arch = s.arch := rfl
@[simp] theorem takeInput_inFlight : (takeInput s).inFlight = s.inFlight := rfl
@[simp] theorem takeInput_rsp : (takeInput s).rsp = none := rfl
@[simp] theorem takeInput_inputs : (takeInput s).inputs = s.inputs.tail := rfl

@[simp] theorem passEdge_params : (passEdge s).params = s.params := rfl
@[simp] theorem passEdge_arch : (passEdge s).arch = s.arch := rfl
@[simp] theorem passEdge_inFlight : (passEdge s).inFlight = s.inFlight := rfl
@[simp] theorem passEdge_rsp : (passEdge s).rsp = none := rfl

@[simp] theorem hardReset_params : (hardReset s).params = s.params := rfl
@[simp] theorem hardReset_arch : (hardReset s).arch = CoreState.resetOf s.params := rfl
@[simp] theorem hardReset_inFlight : (hardReset s).inFlight = none := rfl
@[simp] theorem hardReset_rsp : (hardReset s).rsp = none := rfl
@[simp] theorem hardReset_inputs : (hardReset s).inputs = s.inputs.tail := rfl

@[simp] theorem withFetchWord_params (nbits w : Nat) : (s.withFetchWord nbits w).params = s.params := rfl
@[simp] theorem withFetchWord_arch (nbits w : Nat) : (s.withFetchWord nbits w).arch = s.arch := rfl
@[simp] theorem withFetchWord_inFlight (nbits w : Nat) :
    (s.withFetchWord nbits w).inFlight = s.inFlight := rfl
@[simp] theorem withFetchWord_rsp (nbits w : Nat) : (s.withFetchWord nbits w).rsp = s.rsp := rfl

/-! ### rst and the outputs it gates -/

@[simp] theorem rst_eq_true : rst s = true ↔ s.inputs.head? = some .reset := by simp [rst]

theorem cmdReady_of_rst (h : rst s = true) : cmdReady s = false := by simp [cmdReady, h]
theorem rspValid_of_rst (h : rst s = true) : rspValid s = false := by simp [rspValid, h]
theorem cmdReady_of_not_rst (h : rst s = false) : cmdReady s = idle s.arch := by simp [cmdReady, h]
theorem rspValid_of_not_rst (h : rst s = false) : rspValid s = s.rsp.isSome := by simp [rspValid, h]

/-- While `rst = 1` the micro-step is hardware reset. -/
theorem nextEvent_of_rst (h : rst s = true) : nextEvent s = .reset := by
  obtain ⟨rest, hr⟩ := List.head?_eq_some_iff.1 ((rst_eq_true s).1 h)
  simp [nextEvent, hr]

/-- While `rst = 1` no keystream bit is put out. -/
theorem emission_of_rst (h : rst s = true) : emission s = none := by
  rw [emission, nextEvent_of_rst s h]

/-! ### replyIfDone -/

theorem replyIfDone_cases :
    (replyIfDone s = s ∧ (busy s.arch = true ∨ s.inFlight = none)) ∨
    (∃ f, s.inFlight = some f ∧ busy s.arch = false ∧ replyIfDone s = respond .ok f.payload s) := by
  unfold replyIfDone
  cases hb : busy s.arch
  · cases hf : s.inFlight with
    | none => exact .inl ⟨by simp, .inr rfl⟩
    | some f => exact .inr ⟨f, rfl, rfl, by simp⟩
  · exact .inl ⟨by simp, .inl rfl⟩

@[simp] theorem replyIfDone_params : (replyIfDone s).params = s.params := by
  obtain ⟨h, -⟩ | ⟨f, -, -, h⟩ := replyIfDone_cases s <;> simp [h]

@[simp] theorem replyIfDone_arch : (replyIfDone s).arch = s.arch := by
  obtain ⟨h, -⟩ | ⟨f, -, -, h⟩ := replyIfDone_cases s <;> simp [h]

@[simp] theorem replyIfDone_inputs : (replyIfDone s).inputs = s.inputs := by
  obtain ⟨h, -⟩ | ⟨f, -, -, h⟩ := replyIfDone_cases s <;> simp [h]

/-- After `replyIfDone` a response is owed only while the core is busy. -/
theorem replyIfDone_inFlight :
    (replyIfDone s).inFlight = if busy s.arch then s.inFlight else none := by
  obtain ⟨h, hb | hf⟩ | ⟨f, hf, hb, h⟩ := replyIfDone_cases s
  · simp [h, hb]
  · simp [h, hf]
  · simp [h, hb]

/-! ### openCommand -/

variable (r : Reply) (S : CoreState)

@[simp] theorem openCommand_params : (openCommand r S s).params = s.params := by simp [openCommand]
@[simp] theorem openCommand_arch : (openCommand r S s).arch = S := by simp [openCommand]
@[simp] theorem openCommand_inputs : (openCommand r S s).inputs = s.inputs := by simp [openCommand]

theorem openCommand_busy (h : busy S = true) :
    openCommand r S s = { s with arch := S, rsp := none, inFlight := some ⟨r, []⟩ } := by
  simp [openCommand, replyIfDone, h]

theorem openCommand_idle (h : busy S = false) :
    openCommand r S s =
      respond .ok (InFlight.payload ⟨r, []⟩) { s with arch := S, rsp := none, inFlight := some ⟨r, []⟩ } := by
  simp [openCommand, replyIfDone, h]

/-! ### advance -/

@[simp] theorem advance_params : (advance s).params = s.params := by simp [advance]
@[simp] theorem advance_arch : (advance s).arch = (tick s.params s.arch).1 := by simp [advance]
@[simp] theorem advance_inputs : (advance s).inputs = s.inputs := by simp [advance]

/-! ### runTicks, finish -/

@[simp] theorem runTicks_params (n : Nat) : (runTicks n s).params = s.params := by
  induction n generalizing s with
  | zero => rfl
  | succ n ih =>
    rw [runTicks]
    split
    · rw [ih, advance_params]
    · rfl

@[simp] theorem runTicks_inputs (n : Nat) : (runTicks n s).inputs = s.inputs := by
  induction n generalizing s with
  | zero => rfl
  | succ n ih =>
    rw [runTicks]
    split
    · rw [ih, advance_inputs]
    · rfl

/-- Nothing runs once the command has been answered. -/
theorem runTicks_answered (n : Nat) (h : s.inFlight = none) : runTicks n s = s := by
  cases n <;> simp [runTicks, h]

@[simp] theorem finish_params : (finish s).params = s.params := runTicks_params s _
@[simp] theorem finish_inputs : (finish s).inputs = s.inputs := runTicks_inputs s _

theorem finish_answered (h : s.inFlight = none) : finish s = s := runTicks_answered s _ h

@[simp] theorem finish_respond : finish (respond st pl s) = respond st pl s := finish_answered _ rfl
@[simp] theorem finish_raiseError : finish (raiseError st s) = raiseError st s := finish_answered _ rfl

end Sys2Proof.Machine
end

