-- ==== Sys2Proof/Laws/Ops.lean ====
section
/-! SUPPORT. What the shared operations do, said once: SETTLE, TICK, and running a command to its end. -/

namespace Sys2Proof.Machine

open Sys2Proof

variable (P : Params) (S : CoreState)

/-! ### busy, idle -/

@[simp] theorem idle_eq_not_busy : idle S = !busy S := rfl

theorem busy_eq_true_iff :
    busy S = true ↔ S.phase = .loadKey ∨ S.phase = .loadFrame ∨ S.phase = .warmup ∨ S.nrem ≠ 0 := by
  unfold busy
  cases S.phase <;> simp [Nat.pos_iff_ne_zero]

/-- An idle state is in none of the busy phases and owes no keystream (10_state.md R29). -/
theorem busy_eq_false_iff :
    busy S = false ↔
      (S.phase = .unbuilt ∨ S.phase = .unloaded ∨ S.phase = .ready ∨ S.phase = .running) ∧ S.nrem = 0 := by
  unfold busy
  cases S.phase <;> simp

/-! ### SETTLE: only phase and cnt can change -/

theorem settle_cases :
    settle P S = S ∨
    (∃ p, settle P S = { S with phase := p, cnt := 0 } ∧
      (S.phase = .loadKey ∧ S.cnt = P.keyLen ∧ (p = .loadFrame ∨ p = .warmup ∨ p = .ready) ∨
       S.phase = .loadFrame ∧ S.cnt = P.frameLen ∧ (p = .warmup ∨ p = .ready) ∨
       S.phase = .warmup ∧ S.cnt = P.warmupN ∧ p = .ready)) := by
  obtain ⟨K, F, W, L, N, C⟩ := P
  unfold settle settleKey settleFrame settleWarmup
  cases hp : S.phase <;> simp [hp]
  case loadKey => by_cases hk : S.cnt = K <;> cases F <;> cases W <;> simp [hk, hp]
  case loadFrame => by_cases hf : S.cnt = F <;> cases W <;> simp [hf, hp]
  case warmup => by_cases hw : S.cnt = W <;> simp [hw]

@[simp] theorem settle_cfg : (settle P S).cfg = S.cfg := by
  obtain h | ⟨p, h, -⟩ := settle_cases P S <;> rw [h]
@[simp] theorem settle_regs : (settle P S).regs = S.regs := by
  obtain h | ⟨p, h, -⟩ := settle_cases P S <;> rw [h]
@[simp] theorem settle_nrem : (settle P S).nrem = S.nrem := by
  obtain h | ⟨p, h, -⟩ := settle_cases P S <;> rw [h]
@[simp] theorem settle_keyL : (settle P S).keyL = S.keyL := by
  obtain h | ⟨p, h, -⟩ := settle_cases P S <;> rw [h]
@[simp] theorem settle_frameL : (settle P S).frameL = S.frameL := by
  obtain h | ⟨p, h, -⟩ := settle_cases P S <;> rw [h]

/-- SETTLE does nothing outside the busy phases. -/
theorem settle_of_not_loading (h : S.phase ≠ .loadKey) (h' : S.phase ≠ .loadFrame) (h'' : S.phase ≠ .warmup) :
    settle P S = S := by
  obtain hs | ⟨p, -, ⟨hp, -⟩ | ⟨hp, -⟩ | ⟨hp, -⟩⟩ := settle_cases P S
  · exact hs
  · exact absurd hp h
  · exact absurd hp h'
  · exact absurd hp h''

/-! ### TICK: what no tick writes -/

@[simp] theorem tick_cfg : (tick P S).1.cfg = S.cfg := by
  unfold tick
  cases S.phase <;> simp [tickKey, tickFrame, tickWarmup, tickRun]
@[simp] theorem tick_keyL : (tick P S).1.keyL = S.keyL := by
  unfold tick
  cases S.phase <;> simp [tickKey, tickFrame, tickWarmup, tickRun]
@[simp] theorem tick_frameL : (tick P S).1.frameL = S.frameL := by
  unfold tick
  cases S.phase <;> simp [tickKey, tickFrame, tickWarmup, tickRun]
@[simp] theorem tick_lengths : (tick P S).1.regs.lengths = S.regs.lengths := by
  unfold tick
  cases S.phase <;> simp [tickKey, tickFrame, tickWarmup, tickRun, cipherStep]

/-- A tick of loading or warm-up emits nothing (30_encoding.md R73). -/
theorem tick_emits_nothing (h : S.phase ≠ .ready) (h' : S.phase ≠ .running) : (tick P S).2 = none := by
  unfold tick
  cases hp : S.phase <;> simp_all

/-- The tick of READY and RUNNING: one STEP, its bit emitted, RUNNING. -/
theorem tick_run (h : S.phase = .ready ∨ S.phase = .running) :
    tick P S = (tickRun S, some (cipherStep S.cfg S.regs).2) := by
  have hs : settle P (tickRun S) = tickRun S := settle_of_not_loading P _ (by simp [tickRun])
    (by simp [tickRun]) (by simp [tickRun])
  obtain h | h := h <;> simp [tick, h, hs]

/-! ### The registers a loading state ends with -/

/-- A state in one of START's busy phases. -/
abbrev CoreState.Loading (S : CoreState) : Prop :=
  S.phase = .loadKey ∨ S.phase = .loadFrame ∨ S.phase = .warmup

/-- The registers once all remaining ticks of START have run. -/
def CoreState.finalRegs (P : Params) (S : CoreState) : Regs :=
  match S.phase with
  | .loadKey => warm S.cfg P.warmupN (loadSeq S.cfg (loadSeq S.cfg S.regs (S.keyL.drop S.cnt)) S.frameL)
  | .loadFrame => warm S.cfg P.warmupN (loadSeq S.cfg S.regs (S.frameL.drop S.cnt))
  | .warmup => warm S.cfg (P.warmupN - S.cnt) S.regs
  | .unbuilt => S.regs
  | .unloaded => S.regs
  | .ready => S.regs
  | .running => S.regs

/-- In a busy phase of START the count is at most the phase's length; strictly less between two steps. -/
abbrev CoreState.CountAtMost (P : Params) (S : CoreState) : Prop :=
  (S.phase = .loadKey → S.cnt ≤ P.keyLen) ∧ (S.phase = .loadFrame → S.cnt ≤ P.frameLen) ∧
  (S.phase = .warmup → S.cnt ≤ P.warmupN)

/-- In a busy phase of START a tick is still owed. -/
abbrev CoreState.CountBelow (P : Params) (S : CoreState) : Prop :=
  (S.phase = .loadKey → S.cnt < P.keyLen) ∧ (S.phase = .loadFrame → S.cnt < P.frameLen) ∧
  (S.phase = .warmup → S.cnt < P.warmupN)

/-- SETTLE leaves the work and the final registers as they are, and leaves every finished phase. -/
theorem settle_spec (hK : S.keyL.length = P.keyLen) (hF : S.frameL.length = P.frameLen)
    (hl : S.Loading) (hc : S.CountAtMost P) :
    (settle P S).finalRegs P = S.finalRegs P ∧
    (settle P S).CountBelow P ∧
    ((settle P S).Loading ∧ workLeft P (settle P S) = workLeft P S ∨
      (settle P S).phase = .ready ∧ (settle P S).cnt = 0 ∧ workLeft P S = 0) := by
  obtain ⟨K, F, W, L, N, C⟩ := P
  obtain ⟨c, R, p, n, m, key, frame⟩ := S
  obtain ⟨ck, cf, cw⟩ := hc
  simp only at hK hF ck cf cw
  unfold settle settleKey settleFrame settleWarmup
  obtain hp | hp | hp := hl <;> simp only at hp <;> subst hp
  · have hk := ck rfl
    by_cases h1 : n = K
    · have hd : key.drop n = [] := List.drop_eq_nil_of_le (by omega)
      subst h1
      cases F with
      | zero =>
        obtain rfl := List.eq_nil_of_length_eq_zero hF
        cases W <;> simp [CoreState.finalRegs, workLeft, hd, CoreState.CountBelow, CoreState.Loading]
      | succ F => simp [CoreState.finalRegs, workLeft, hd, CoreState.CountBelow, CoreState.Loading]
    · simp [h1, CoreState.finalRegs, workLeft, CoreState.CountBelow, CoreState.Loading]
      omega
  · have hf := cf rfl
    by_cases h2 : n = F
    · have hd : frame.drop n = [] := List.drop_eq_nil_of_le (by omega)
      subst h2
      cases W <;> simp [CoreState.finalRegs, workLeft, hd, CoreState.CountBelow, CoreState.Loading]
    · simp [h2, CoreState.finalRegs, workLeft, CoreState.CountBelow, CoreState.Loading]
      omega
  · have hw := cw rfl
    by_cases h3 : n = W
    · simp [h3, CoreState.finalRegs, workLeft, CoreState.CountBelow, CoreState.Loading]
    · simp [h3, CoreState.finalRegs, workLeft, CoreState.CountBelow, CoreState.Loading]
      omega

/-- Reading the next bit and going on is going on with the rest. -/
theorem loadSeq_drop (c : Cfg) (R : Regs) (s : BitSeq) (i : Nat) (h : i < s.length) :
    loadSeq c (loadBit c R (bitAt s i)) (s.drop (i + 1)) = loadSeq c R (s.drop i) := by
  rw [List.drop_eq_getElem_cons h, loadSeq_cons, bitAt, List.getD_eq_getElem?_getD,
    List.getElem?_eq_getElem h, Option.getD_some]

/-- One tick of START: the final registers stay the same and the work left goes down by one, until the
last tick leads to READY. -/
theorem tick_loading_spec (hK : S.keyL.length = P.keyLen) (hF : S.frameL.length = P.frameLen)
    (hl : S.Loading) (hc : S.CountBelow P) :
    ((tick P S).1.finalRegs P = S.finalRegs P ∧ (tick P S).1.nrem = S.nrem ∧ (tick P S).2 = none) ∧
    (tick P S).1.CountBelow P ∧
    ((tick P S).1.Loading ∧ workLeft P (tick P S).1 + 1 = workLeft P S ∨
      (tick P S).1.phase = .ready ∧ (tick P S).1.cnt = 0 ∧ workLeft P S = 1) := by
  have key : ∀ T : CoreState, T.keyL.length = P.keyLen → T.frameL.length = P.frameLen → T.Loading →
      T.CountAtMost P → T.finalRegs P = S.finalRegs P → T.nrem = S.nrem → workLeft P T + 1 = workLeft P S →
      tick P S = (settle P T, none) →
      ((tick P S).1.finalRegs P = S.finalRegs P ∧ (tick P S).1.nrem = S.nrem ∧ (tick P S).2 = none) ∧
      (tick P S).1.CountBelow P ∧
      ((tick P S).1.Loading ∧ workLeft P (tick P S).1 + 1 = workLeft P S ∨
        (tick P S).1.phase = .ready ∧ (tick P S).1.cnt = 0 ∧ workLeft P S = 1) := by
    intro T h1 h2 h3 h4 h5 h6 h7 h8
    obtain ⟨e, b, ⟨hL, hw⟩ | ⟨hr, h0, hw⟩⟩ := settle_spec P T h1 h2 h3 h4
    · rw [h8]
      exact ⟨⟨by rw [e, h5], by rw [settle_nrem, h6], rfl⟩, b, .inl ⟨hL, by rw [hw, h7]⟩⟩
    · rw [h8]
      exact ⟨⟨by rw [e, h5], by rw [settle_nrem, h6], rfl⟩, b, .inr ⟨hr, h0, by omega⟩⟩
  obtain ⟨ck, cf, cw⟩ := hc
  obtain hp | hp | hp := hl
  · have hk := ck hp
    refine key (tickKey S) hK hF (by simp [tickKey, CoreState.Loading, hp])
      (by simp [tickKey, CoreState.CountAtMost, hp]; omega) ?_ rfl (by simp [tickKey, workLeft, hp]; omega)
      (by simp [tick, hp])
    simp only [CoreState.finalRegs, tickKey, hp]
    rw [loadSeq_drop _ _ _ _ (by omega)]
  · have hf := cf hp
    refine key (tickFrame S) hK hF (by simp [tickFrame, CoreState.Loading, hp])
      (by simp [tickFrame, CoreState.CountAtMost, hp]; omega) ?_ rfl (by simp [tickFrame, workLeft, hp]; omega)
      (by simp [tick, hp])
    simp only [CoreState.finalRegs, tickFrame, hp]
    rw [loadSeq_drop _ _ _ _ (by omega)]
  · have hw := cw hp
    refine key (tickWarmup S) hK hF (by simp [tickWarmup, CoreState.Loading, hp])
      (by simp [tickWarmup, CoreState.CountAtMost, hp]; omega) ?_ rfl (by simp [tickWarmup, workLeft, hp]; omega)
      (by simp [tick, hp])
    simp only [CoreState.finalRegs, tickWarmup, hp]
    obtain ⟨k, hk⟩ := Nat.exists_eq_add_of_lt hw
    rw [hk, show S.cnt + k + 1 - S.cnt = k + 1 by omega, show S.cnt + k + 1 - (S.cnt + 1) = k by omega, warm_succ]

theorem busy_of_loading (h : S.Loading) : busy S = true := by
  rw [busy_eq_true_iff]
  tauto

theorem busy_of_ready (h : S.phase = .ready) (hn : S.nrem = 0) : busy S = false := by
  simp [busy, h, hn]

variable (s : State)

/-- START run to its end: WARM after what is left to load, READY, answered OK without payload
(42_cipher_fsm.md R128). -/
theorem runTicks_loading (n : Nat) (f : InFlight) (hK : s.arch.keyL.length = s.params.keyLen)
    (hF : s.arch.frameL.length = s.params.frameLen) (hl : s.arch.Loading) (hc : s.arch.CountBelow s.params)
    (hn : s.arch.nrem = 0) (hf : s.inFlight = some f) (hw : workLeft s.params s.arch = n) :
    runTicks n s =
      respond .ok f.payload
        { s with arch := { s.arch with regs := s.arch.finalRegs s.params, phase := .ready, cnt := 0 } } := by
  induction n generalizing s with
  | zero =>
    obtain ⟨ck, cf, cw⟩ := hc
    obtain hp | hp | hp := hl <;> simp only [workLeft, hp] at hw
    · have := ck hp; omega
    · have := cf hp; omega
    · have := cw hp; omega
  | succ n ih =>
    have hpush : f.push none = f := by simp [InFlight.push]
    obtain ⟨⟨e, hm, he⟩, hb, ⟨hL, hw'⟩ | ⟨hr, h0, hw'⟩⟩ := tick_loading_spec s.params s.arch hK hF hl hc
    · have ha : advance s = { s with arch := (tick s.params s.arch).1, rsp := none } := by
        have := busy_of_loading _ hL
        simp [advance, replyIfDone, this, he, hf, hpush]
      rw [runTicks, if_pos (by simp [hf]), ih (advance s) (by simp [hK]) (by simp [hF])
        (by simpa using hL) (by simpa using hb) (by simpa [hn] using hm) (by simp [ha, hf]) (by simp; omega), ha]
      simp only [e, respond, tick_cfg, tick_keyL, tick_frameL, hm, hn]
    · have hnb := busy_of_ready _ hr (by rw [hm, hn])
      have ha : advance s = respond .ok f.payload { s with arch := (tick s.params s.arch).1, rsp := none } := by
        simp [advance, replyIfDone, hnb, he, hf, hpush, respond]
      have hregs : (tick s.params s.arch).1.regs = s.arch.finalRegs s.params := by
        rw [← e, CoreState.finalRegs, hr]
      have harch : (tick s.params s.arch).1 =
          { s.arch with regs := s.arch.finalRegs s.params, phase := .ready, cnt := 0 } := by
        have : ∀ T : CoreState, T = ⟨T.cfg, T.regs, T.phase, T.cnt, T.nrem, T.keyL, T.frameL⟩ := fun _ => rfl
        rw [this (tick s.params s.arch).1, hregs, hr, h0, hm, tick_cfg, tick_keyL, tick_frameL]
      rw [runTicks, if_pos (by simp [hf]), runTicks_answered _ _ (by simp [ha]), ha, harch]
      rfl

/-- NEXT and NEXTN run to their end: KS, RUNNING, answered with the bits (42_cipher_fsm.md R128). -/
theorem runTicks_running (n : Nat) (f : InFlight) (hp : s.arch.phase = .ready ∨ s.arch.phase = .running)
    (hf : s.inFlight = some f) (hn : s.arch.nrem = n) (hpos : 0 < n) :
    runTicks n s =
      respond .ok (InFlight.payload { f with sent := f.sent ++ (keystream s.arch.cfg n s.arch.regs).2 })
        { s with arch := { s.arch with
            regs := (keystream s.arch.cfg n s.arch.regs).1, phase := .running, nrem := 0 } } := by
  induction n generalizing s f with
  | zero => exact absurd hpos (by decide)
  | succ n ih =>
    have ht := tick_run s.params s.arch hp
    cases n with
    | zero =>
      have hb : busy (tickRun s.arch) = false := by simp [busy, tickRun, hn]
      have ha : advance s = respond .ok (f.push (some (cipherStep s.arch.cfg s.arch.regs).2)).payload
          { s with arch := tickRun s.arch, rsp := none } := by
        simp [advance, replyIfDone, ht, hb, hf, respond]
      rw [runTicks, if_pos (by simp [hf]), ha, runTicks]
      simp [respond, keystream, InFlight.push, tickRun, hn]
    | succ n =>
      have hb : busy (tickRun s.arch) = true := by simp [busy, tickRun, hn]
      have ha : advance s = { s with
          arch := tickRun s.arch, rsp := none,
          inFlight := some (f.push (some (cipherStep s.arch.cfg s.arch.regs).2)) } := by
        simp [advance, replyIfDone, ht, hb, hf]
      rw [runTicks, if_pos (by simp [hf]), ih (advance s) _ (by simp [ha, tickRun]) (by rw [ha])
        (by simp [ha, tickRun, hn]) (by omega), ha]
      simp [respond, keystream_succ s.arch.cfg (n + 1), InFlight.push, tickRun]

end Sys2Proof.Machine
end

