-- ==== Sys2Proof/Laws/Exec.lean ====
section
/-! SUPPORT. What a whole command can do, said once (spec/44_host_commands.md R150). -/

namespace Sys2Proof.Machine

open Sys2Proof

variable (s : State)

/-! ### Commands run to their end -/

/-- START's loading, begun by its acceptance and run to its response. -/
theorem finish_loading (S : CoreState) (hp : S.phase = .loadKey) (h0 : S.cnt = 0) (hn : S.nrem = 0)
    (hK : S.keyL.length = s.params.keyLen) (hF : S.frameL.length = s.params.frameLen) :
    finish (openCommand .plain (settle s.params S) s) =
      respond .ok .none
        { s with arch := { S with
            regs := warm S.cfg s.params.warmupN (loadSeq S.cfg (loadSeq S.cfg S.regs S.keyL) S.frameL)
            phase := .ready, cnt := 0 } } := by
  obtain ⟨e, hb, h⟩ := settle_spec s.params S hK hF (.inl hp)
    (by simp [CoreState.CountAtMost, hp, h0])
  have hfin : S.finalRegs s.params =
      warm S.cfg s.params.warmupN (loadSeq S.cfg (loadSeq S.cfg S.regs S.keyL) S.frameL) := by
    simp [CoreState.finalRegs, hp, h0]
  obtain ⟨hL, -⟩ | ⟨hr, hc, -⟩ := h
  · rw [openCommand_busy s _ _ (busy_of_loading _ hL), finish,
      runTicks_loading _ _ ⟨.plain, []⟩ (by simpa using hK) (by simpa using hF) hL hb (by simpa using hn) rfl rfl]
    simp [respond, e, hfin, InFlight.payload, hn]
  · have hi := busy_of_ready (settle s.params S) hr (by simpa using hn)
    have hregs : S.finalRegs s.params = S.regs := by
      rw [← e, CoreState.finalRegs, hr, settle_regs]
    have harch : settle s.params S = { S with regs := S.finalRegs s.params, phase := .ready, cnt := 0 } := by
      have : ∀ T : CoreState, T = ⟨T.cfg, T.regs, T.phase, T.cnt, T.nrem, T.keyL, T.frameL⟩ := fun _ => rfl
      rw [this (settle s.params S), hregs, hr, hc]
      simp
    rw [openCommand_idle s _ _ hi, finish_answered _ (by simp), harch, hfin]
    rfl

/-- NEXT's or NEXTN's ticks, begun by its acceptance and run to its response. -/
theorem finish_running (r : Reply) (n : Nat) (hp : s.arch.phase = .ready ∨ s.arch.phase = .running)
    (hpos : 0 < n) :
    finish (openCommand r { s.arch with nrem := n } s) =
      respond .ok (InFlight.payload ⟨r, (keystream s.arch.cfg n s.arch.regs).2⟩)
        { s with arch := { s.arch with
            regs := (keystream s.arch.cfg n s.arch.regs).1, phase := .running, nrem := 0 } } := by
  have hb : busy { s.arch with nrem := n } = true := by
    rw [busy_eq_true_iff]
    exact .inr (.inr (.inr (by simpa using hpos.ne')))
  have hw : workLeft s.params { s.arch with nrem := n } = n := by
    obtain hp | hp := hp <;> simp [workLeft, hp]
  rw [openCommand_busy s _ _ hb, finish]
  simp only [hw]
  refine (runTicks_running
    { s with arch := { s.arch with nrem := n }, rsp := none, inFlight := some ⟨r, []⟩ } n ⟨r, []⟩
    hp rfl rfl hpos).trans ?_
  simp [respond]

/-- NEXTN 0: no tick, no bit, no change (44_host_commands.md R154). -/
theorem finish_nextn_zero (hp : s.arch.phase = .ready ∨ s.arch.phase = .running) (hn : s.arch.nrem = 0) :
    finish (openCommand .bits { s.arch with nrem := 0 } s) = respond .ok (.keystream []) s := by
  have hb : busy { s.arch with nrem := 0 } = false := by
    obtain hp | hp := hp <;> simp [busy, hp]
  rw [openCommand_idle s _ _ hb, finish_answered _ (by simp)]
  obtain ⟨P, ⟨c, R, p, k, m, key, frame⟩, f, q, ins⟩ := s
  simp only at hn
  subst hn
  rfl

theorem producesKeystream_iff (p : Phase) : producesKeystream p = true ↔ p = .ready ∨ p = .running := by
  simp [producesKeystream]

/-! ### The effect of a command -/

/-- What a command accepted in an idle state writes to the state of the core, with the status and payload
it is answered with. The first case is a command that writes nothing. -/
inductive Effect (P : Params) (S : CoreState) : Instr → Status → Payload → CoreState → Prop
  | nothing (i : Instr) (st : Status) (pl : Payload) (h : st ≠ .ok → pl = .none) : Effect P S i st pl S
  | construct (c : Cfg) (h : wfCfg P c = true) :
      Effect P S (.init c) .ok .none
        { S with cfg := c, regs := construct c, phase := .unloaded, cnt := 0, nrem := 0 }
  | keySetup (key frame : BitSeq) (hp : S.phase = .unloaded) (hk : key.length = P.keyLen)
      (hf : frame.length = P.frameLen) :
      Effect P S (.start key frame) .ok .none
        { S with
          regs := warm S.cfg P.warmupN (loadSeq S.cfg (loadSeq S.cfg S.regs key) frame)
          phase := .ready, cnt := 0, keyL := key, frameL := frame }
  | oneBit (hp : S.phase = .ready ∨ S.phase = .running) :
      Effect P S .next .ok (.bit (cipherStep S.cfg S.regs).2)
        { S with regs := (cipherStep S.cfg S.regs).1, phase := .running, nrem := 0 }
  | bits (n : Nat) (hp : S.phase = .ready ∨ S.phase = .running) (hpos : 0 < n) :
      Effect P S (.nextn n) .ok (.keystream (keystream S.cfg n S.regs).2)
        { S with regs := (keystream S.cfg n S.regs).1, phase := .running, nrem := 0 }

/-- The X-format operation writes nothing. -/
theorem combineX_effect (tlen klen : Nat) (text ks : BitSeq) :
    ∃ st pl, (st ≠ .ok → pl = .none) ∧ combineX tlen klen text ks s = respond st pl s := by
  unfold combineX
  cases xorSeq (sampled text tlen) (sampled ks klen) with
  | ok r => exact ⟨.ok, .text r, by simp, rfl⟩
  | error e => exact ⟨e, .none, by simp, rfl⟩

/-- A command accepted in an idle state answers a next state: its effect on the state of the core, and its
response. Nothing else changes. -/
theorem exec_effect (i : Instr) (h : busy s.arch = false) :
    ∃ st pl S, Effect s.params s.arch i st pl S ∧ exec i s = .next (respond st pl { s with arch := S }) := by
  have hn : s.arch.nrem = 0 := ((busy_eq_false_iff _).1 h).2
  cases i
  case init c =>
    by_cases hw : wfCfg s.params c = true
    · exact ⟨_, _, _, .construct c hw, by simp [exec, execInit, acceptInit, hw]⟩
    · exact ⟨_, _, _, .nothing _ .errConfig .none (fun _ => rfl), by simp [exec, execInit, acceptInit, hw]; rfl⟩
  case start key frame =>
    by_cases hp : s.arch.phase = .unloaded
    · by_cases hw : wfKeyFrame s.params key frame = true
      · have hl : key.length = s.params.keyLen ∧ frame.length = s.params.frameLen := by
          simpa [wfKeyFrame] using hw
        refine ⟨_, _, _, .keySetup key frame hp hl.1 hl.2, ?_⟩
        simp only [exec, execStart, acceptStart, hp, hw, if_true]
        rw [finish_loading s
          { s.arch with keyL := key, frameL := frame, phase := .loadKey, cnt := 0 } rfl rfl hn hl.1 hl.2]
      · exact ⟨_, _, _, .nothing _ .errConfig .none (fun _ => rfl), by
          simp [exec, execStart, acceptStart, hp, hw]; rfl⟩
    · exact ⟨_, _, _, .nothing _ .errPhase .none (fun _ => rfl), by
        simp [exec, execStart, acceptStart, hp]; rfl⟩
  case next =>
    by_cases hp : producesKeystream s.arch.phase = true
    · have hp' := (producesKeystream_iff _).1 hp
      refine ⟨_, _, _, .oneBit hp', ?_⟩
      simp only [exec, execNext, acceptNext, hp, if_true]
      rw [finish_running s .oneBit 1 hp' (by decide)]
      rfl
    · exact ⟨_, _, _, .nothing _ .errPhase .none (fun _ => rfl), by
        simp [exec, execNext, acceptNext, hp]; rfl⟩
  case nextn n =>
    by_cases hp : producesKeystream s.arch.phase = true
    · have hp' := (producesKeystream_iff _).1 hp
      rcases Nat.eq_zero_or_pos n with rfl | hpos
      · refine ⟨_, _, _, .nothing _ .ok (.keystream []) (fun h => absurd rfl h), ?_⟩
        simp only [exec, execNextn, acceptNextn, hp, if_true]
        rw [finish_nextn_zero s hp' hn]
      · refine ⟨_, _, _, .bits n hp' hpos, ?_⟩
        simp only [exec, execNextn, acceptNextn, hp, if_true]
        rw [finish_running s .bits n hp' hpos]
        rfl
    · exact ⟨_, _, _, .nothing _ .errPhase .none (fun _ => rfl), by
        simp [exec, execNextn, acceptNextn, hp]; rfl⟩
  case combine tlen klen text ks =>
    obtain ⟨st, pl, hpl, e⟩ := combineX_effect s tlen klen text ks
    exact ⟨st, pl, _, .nothing _ st pl hpl, by rw [exec, execCombine, e]⟩
  case encrypt tlen klen text ks =>
    obtain ⟨st, pl, hpl, e⟩ := combineX_effect s tlen klen text ks
    exact ⟨st, pl, _, .nothing _ st pl hpl, by rw [exec, execEncrypt, e]⟩
  case decrypt tlen klen text ks =>
    obtain ⟨st, pl, hpl, e⟩ := combineX_effect s tlen klen text ks
    exact ⟨st, pl, _, .nothing _ st pl hpl, by rw [exec, execDecrypt, e]⟩
  case status => exact ⟨_, _, _, .nothing _ .ok .none (fun _ => rfl), rfl⟩
  case snap => exact ⟨_, _, _, .nothing _ .ok (.snapshot _ _ _) (fun h => absurd rfl h), rfl⟩
  all_goals exact ⟨_, _, _, .nothing _ .errOpcode .none (fun _ => rfl), rfl⟩

/-! ### The step -/

/-- One step is a reset, a tick, a whole command, or waiting. -/
theorem step_cases :
    (nextEvent s = .reset ∧ step s = .next (hardReset s)) ∨
    (nextEvent s = .tick ∧ busy s.arch = true ∧ step s = .next (advance (passEdge s))) ∨
    (∃ p rest, nextEvent s = .command p ∧ busy s.arch = false ∧ s.inputs = .command p :: rest ∧
      step s = exec (decode s.params p) (takeInput s)) ∨
    (nextEvent s = .wait ∧ busy s.arch = false ∧ step s = .next (passEdge s)) := by
  have key : ∀ e, nextEvent s = e →
      (e = .reset ∨ e = .tick ∧ busy s.arch = true ∨
        (∃ p rest, e = .command p ∧ busy s.arch = false ∧ s.inputs = .command p :: rest) ∨
        e = .wait ∧ busy s.arch = false) := by
    rintro e rfl
    unfold nextEvent
    cases hi : s.inputs with
    | nil => cases hb : busy s.arch <;> simp
    | cons x rest => cases x <;> cases hb : busy s.arch <;> simp
  obtain h | ⟨h, hb⟩ | ⟨p, rest, h, hb, hi⟩ | ⟨h, hb⟩ := key _ rfl
  · exact .inl ⟨h, by rw [step, h]⟩
  · exact .inr (.inl ⟨h, hb, by rw [step, h]⟩)
  · exact .inr (.inr (.inl ⟨p, rest, h, hb, hi, by rw [step, h]⟩))
  · exact .inr (.inr (.inr ⟨h, hb, by rw [step, h]⟩))

/-- One micro-step is a reset, a tick, the acceptance of a command, or waiting. -/
theorem cycle_cases :
    (nextEvent s = .reset ∧ cycle s = hardReset s) ∨
    (nextEvent s = .tick ∧ busy s.arch = true ∧ cycle s = advance (passEdge s)) ∨
    (∃ p rest, nextEvent s = .command p ∧ busy s.arch = false ∧ s.inputs = .command p :: rest ∧
      cycle s = accept (decode s.params p) (takeInput s)) ∨
    (nextEvent s = .wait ∧ busy s.arch = false ∧ cycle s = passEdge s) := by
  obtain ⟨h, -⟩ | ⟨h, hb, -⟩ | ⟨p, rest, h, hb, hi, -⟩ | ⟨h, hb, -⟩ := step_cases s
  · exact .inl ⟨h, by rw [cycle, h]⟩
  · exact .inr (.inl ⟨h, hb, by rw [cycle, h]⟩)
  · exact .inr (.inr (.inl ⟨p, rest, h, hb, hi, by rw [cycle, h]⟩))
  · exact .inr (.inr (.inr ⟨h, hb, by rw [cycle, h]⟩))

/-- A whole command is its acceptance run to its response. -/
theorem exec_eq_finish_accept (i : Instr) : exec i s = .next (finish (accept i s)) := by
  have hx : ∀ tlen klen text ks, finish (combineX tlen klen text ks s) = combineX tlen klen text ks s := by
    intro tlen klen text ks
    obtain ⟨st, pl, -, e⟩ := combineX_effect s tlen klen text ks
    rw [e, finish_answered _ rfl]
  cases i
  case init c =>
    rw [exec, execInit, accept, finish_answered]
    unfold acceptInit
    split <;> rfl
  case start => rfl
  case next => rfl
  case nextn => rfl
  case combine => rw [exec, execCombine, accept, hx]
  case encrypt => rw [exec, execEncrypt, accept, hx]
  case decrypt => rw [exec, execDecrypt, accept, hx]
  case status => rw [exec, execStatus, accept, acceptStatus, finish_respond]
  case snap => rw [exec, execSnap, accept, acceptSnap, finish_respond]
  all_goals simp only [accept, opcodeError, finish_raiseError]; rfl

end Sys2Proof.Machine
end

