-- ==== Sys2Proof/Laws/Invariant.lean ====
section
/-! SUPPORT. What the shared operations keep of the invariant, what a tick has done when it is done, and
what the acceptance of a command can write. -/

namespace Sys2Proof.Machine

open Sys2Proof

/-! ### Lengths -/

/-- `len(R[j]) = cfg.LEN[j]`, as one equation. -/
theorem lengthsFit_iff (S : CoreState) : S.LengthsFit ↔ S.regs.lengths = (S.cfg.e1.len, S.cfg.e2.len, S.cfg.e3.len) := by
  simp [CoreState.LengthsFit, Regs.lengths]

@[simp] theorem loadSeq_lengths (c : Cfg) (s : BitSeq) (R : Regs) : (loadSeq c R s).lengths = R.lengths := by
  induction s generalizing R with
  | nil => rfl
  | cons k s ih => rw [loadSeq_cons, ih, loadBit_lengths]

@[simp] theorem warm_lengths (c : Cfg) (n : Nat) (R : Regs) : (warm c n R).lengths = R.lengths := by
  induction n generalizing R with
  | zero => rfl
  | succ n ih => rw [warm_succ, ih]; exact stepRegs_lengths c R

@[simp] theorem ks_lengths (c : Cfg) (n : Nat) (R : Regs) : (keystream c n R).1.lengths = R.lengths := by
  induction n generalizing R with
  | zero => rfl
  | succ n ih => rw [keystream_succ]; simp only [ih]; exact stepRegs_lengths c R

/-- No length of a well-formed configuration is 0 (10_state.md R25(a)). -/
theorem wfCfg_len_ne_zero (P : Params) (c : Cfg) (h : wfCfg P c = true) :
    c.e1.len ≠ 0 ∧ c.e2.len ≠ 0 ∧ c.e3.len ≠ 0 := by
  simp [wfCfg, wfEntry] at h
  omega

/-! ### The invariant -/

/-- A successful command keeps the invariant of the core's state and leaves it idle. -/
theorem effect_inv (P : Params) (S S' : CoreState) (i : Instr) (st : Status) (pl : Payload)
    (hw : i.wf P = true) (hi : S.Inv P) (hb : busy S = false) (h : Effect P S i st pl S') :
    S'.Inv P ∧ busy S' = false := by
  obtain ⟨h1, h2, h3, h4, h5, h6⟩ := hi
  have hb' := (busy_eq_false_iff _).1 hb
  cases h with
  | nothing => exact ⟨⟨h1, h2, h3, h4, h5, h6⟩, hb⟩
  | construct c hc =>
    have := wfCfg_len_ne_zero P c hc
    simp [Instr.wf, Cfg.fits, Entry.fits] at hw
    refine ⟨⟨by simp [this, CoreState.NoLength], by simp [CoreState.LengthsFit, construct], fun _ => hc,
      fun _ => rfl, ?_, ?_⟩, rfl⟩
    · simp [CoreState.CountsFit]
    · simp [CoreState.WidthsFit, hw, h6.1, h6.2.1]
  | keySetup key frame hp hk hf =>
    have hnu : S.phase ≠ .unbuilt := by simp [hp]
    refine ⟨⟨?_, ?_, ?_, ?_, ?_, ?_⟩, ?_⟩
    · exact ⟨(fun h => nomatch h), fun h => absurd (h1.2 h) hnu⟩
    · rw [lengthsFit_iff] at *
      exact (warm_lengths _ _ _).trans ((loadSeq_lengths _ _ _).trans ((loadSeq_lengths _ _ _).trans h2))
    · exact fun _ => h3 hnu
    · simp
    · simp [CoreState.CountsFit, hb'.2]
    · exact ⟨hk, hf, h6.2.2⟩
    · simp [busy, hb'.2]
  | oneBit hp =>
    have hnu : S.phase ≠ .unbuilt := by obtain hp | hp := hp <;> simp [hp]
    have hc : S.cnt = 0 := h5.2.2.2.1 (hp.elim (fun h => .inr (.inr (.inl h))) (fun h => .inr (.inr (.inr h))))
    refine ⟨⟨?_, ?_, ?_, ?_, ?_, ?_⟩, ?_⟩
    · exact ⟨(fun h => nomatch h), fun h => absurd (h1.2 h) hnu⟩
    · rw [lengthsFit_iff] at *; exact (stepRegs_lengths _ _).trans h2
    · exact fun _ => h3 hnu
    · simp
    · simp [CoreState.CountsFit, hc]
    · exact h6
    · simp [busy]
  | bits n hp hn =>
    have hnu : S.phase ≠ .unbuilt := by obtain hp | hp := hp <;> simp [hp]
    have hc : S.cnt = 0 := h5.2.2.2.1 (hp.elim (fun h => .inr (.inr (.inl h))) (fun h => .inr (.inr (.inr h))))
    refine ⟨⟨?_, ?_, ?_, ?_, ?_, ?_⟩, ?_⟩
    · exact ⟨(fun h => nomatch h), fun h => absurd (h1.2 h) hnu⟩
    · rw [lengthsFit_iff] at *; exact (ks_lengths _ _ _).trans h2
    · exact fun _ => h3 hnu
    · simp
    · simp [CoreState.CountsFit, hc]
    · exact h6
    · simp [busy]

/-- SETTLE gives the invariant back where only the bound of a finished count was missing. -/
theorem settle_inv (P : Params) (S : CoreState)
    (h1 : S.phase = .loadKey ∨ S.phase = .loadFrame ∨ S.phase = .warmup) (hnl : ¬ S.NoLength) (h2 : S.LengthsFit)
    (h3 : wfCfg P S.cfg = true) (h5 : S.CountAtMost P) (hn : S.nrem = 0) (h6 : S.WidthsFit P) :
    (settle P S).Inv P ∧ ((settle P S).Loading ∨ busy (settle P S) = false) := by
  obtain ⟨-, hb, h⟩ := settle_spec P S h6.1 h6.2.1 h1 h5
  have hnu : (settle P S).phase ≠ .unbuilt ∧ (settle P S).phase ≠ .unloaded ∧ (settle P S).phase ≠ .running := by
    obtain ⟨h | h | h, -⟩ | ⟨h, -⟩ := h <;> simp [h]
  refine ⟨⟨⟨fun h => absurd h hnu.1, fun h => absurd (by simpa [CoreState.NoLength] using h) hnl⟩, ?_, ?_,
    fun h => absurd h hnu.2.1, ?_, ?_⟩, ?_⟩
  · simpa [CoreState.LengthsFit] using h2
  · exact fun _ => by simpa using h3
  · refine ⟨hb.1, hb.2.1, hb.2.2, ?_, ?_, ?_⟩
    · rintro (h' | h' | h' | h')
      · exact absurd h' hnu.1
      · exact absurd h' hnu.2.1
      · obtain ⟨h | h | h, -⟩ | ⟨h, hc, -⟩ := h
        · simp [h'] at h
        · simp [h'] at h
        · simp [h'] at h
        · exact hc
      · exact absurd h' hnu.2.2
    · simp [hn]
    · simp [hn]
  · simpa [CoreState.WidthsFit] using h6
  · obtain ⟨h, -⟩ | ⟨h, -⟩ := h
    · exact .inl h
    · exact .inr (busy_of_ready _ h (by simp [hn]))

/-- A tick keeps the invariant of the core's state, and stays among START's phases or READY and RUNNING. -/
theorem tick_inv (P : Params) (S : CoreState) (hi : S.Inv P) (hb : busy S = true) :
    (tick P S).1.Inv P ∧ (S.Loading → (tick P S).1.Loading ∨ busy (tick P S).1 = false) ∧
    (S.phase = .ready ∨ S.phase = .running → (tick P S).1.phase = .running) ∧
    (S.Loading ∨ S.phase = .ready ∨ S.phase = .running) := by
  obtain ⟨h1, h2, h3, h4, h5, h6⟩ := hi
  have hl := lengthsFit_iff S
  have hc : S.Loading ∨ (S.phase = .ready ∨ S.phase = .running) := by
    obtain h | h | h | h := (busy_eq_true_iff _).1 hb
    · exact .inl (.inl h)
    · exact .inl (.inr (.inl h))
    · exact .inl (.inr (.inr h))
    · exact .inr (h5.2.2.2.2.1 h)
  obtain hc | hc := hc
  · have hnu : S.phase ≠ .unbuilt := by obtain h | h | h := hc <;> simp [h]
    have hnl : ¬ S.NoLength := fun h => hnu (h1.2 h)
    have hn : S.nrem = 0 := by
      by_contra hh
      have := h5.2.2.2.2.1 hh
      obtain h | h | h := hc <;> simp [h] at this
    have key : ∀ T : CoreState, T.phase = S.phase → T.cfg = S.cfg → T.regs.lengths = S.regs.lengths →
       T.keyL = S.keyL →
       T.frameL = S.frameL → T.nrem = S.nrem → T.cnt = S.cnt + 1 → tick P S = (settle P T, none) →
       (tick P S).1.Inv P ∧ ((tick P S).1.Loading ∨ busy (tick P S).1 = false) := by
      intro T e1 e2 e3 e4 e5 e6 e7 e8
      rw [e8]
      refine settle_inv P T (e1 ▸ hc) (by simpa [CoreState.NoLength, e2] using hnl) ?_ (e2 ▸ h3 hnu) ?_ (e6 ▸ hn) ?_
      · rw [lengthsFit_iff, e3, e2]; exact hl.1 h2
      · refine ⟨fun h => ?_, fun h => ?_, fun h => ?_⟩ <;> rw [e1] at h <;> rw [e7]
        · exact h5.1 h
        · exact h5.2.1 h
        · exact h5.2.2.1 h
      · simpa [CoreState.WidthsFit, e2, e4, e5] using h6
    have hk : (tick P S).1.Inv P ∧ ((tick P S).1.Loading ∨ busy (tick P S).1 = false) := by
      obtain h | h | h := hc
      · exact key (tickKey S) rfl rfl (loadBit_lengths _ _ _) rfl rfl rfl rfl (by simp [tick, h])
      · exact key (tickFrame S) rfl rfl (loadBit_lengths _ _ _) rfl rfl rfl rfl (by simp [tick, h])
      · exact key (tickWarmup S) rfl rfl (stepRegs_lengths _ _) rfl rfl rfl rfl (by simp [tick, h])
    refine ⟨hk.1, fun _ => hk.2, ?_, .inl hc⟩
    rintro (h | h) <;> obtain hc | hc | hc := hc <;> simp [h] at hc
  · have hnu : S.phase ≠ .unbuilt := by obtain h | h := hc <;> simp [h]
    rw [tick_run P S hc]
    have h0 : S.cnt = 0 := h5.2.2.2.1 (hc.elim (fun h => .inr (.inr (.inl h))) (fun h => .inr (.inr (.inr h))))
    refine ⟨⟨⟨fun h => (nomatch h), fun h => absurd (h1.2 h) hnu⟩, ?_, fun _ => h3 hnu,
      fun h => (nomatch h), ?_, h6⟩, ?_, fun _ => rfl, .inr hc⟩
    · rw [lengthsFit_iff] at *; exact (stepRegs_lengths _ _).trans h2
    · simp [CoreState.CountsFit, tickRun, h0]
      have := h5.2.2.2.2.2
      omega
    · rintro (h | h | h) <;> simp [h] at hc

/-- A tick, and the response if it was the last one, keep the invariant of the machine. -/
theorem advance_inv (s : State) (hi : s.Inv) (hb : busy s.arch = true) : (advance s).Inv := by
  obtain ⟨hP, hA, hO1, hO2⟩ := hi
  obtain ⟨t1, t2, t3, t4⟩ := tick_inv s.params s.arch hA hb
  rw [hb] at hO1
  obtain ⟨f, hf⟩ := Option.isSome_iff_exists.1 hO1
  have hm := hO2 f (by simp [hf])
  refine ⟨by simpa using hP, by simpa using t1, ?_⟩
  cases hbt : busy (tick s.params s.arch).1
  · have : (advance s).inFlight = none := by
      simp [advance, replyIfDone_inFlight, hbt]
    rw [State.OwesWhileBusy, this]; simp [hbt]
  · have : (advance s).inFlight = some (f.push (tick s.params s.arch).2) := by
      simp [advance, replyIfDone_inFlight, hbt, hf]
    rw [State.OwesWhileBusy, this]
    refine ⟨by simp [hbt], ?_⟩
    rintro g hg
    simp at hg; subst hg
    show f.reply = .plain ↔ _
    rw [show (f.reply = .plain ↔ _) from hm, advance_arch]
    constructor
    · intro h
      obtain h | h := t2 h
      · exact h
      · simp [hbt] at h
    · intro h
      obtain h' | h' := t4
      · exact h'
      · have := t3 h'
        simp [this] at h

theorem respond_inv (st : Status) (pl : Payload) (s : State) (hP : s.params.ok = true)
    (hA : s.arch.Inv s.params) (hb : busy s.arch = false) : (respond st pl s).Inv :=
  ⟨hP, hA, by simp [State.OwesWhileBusy, hb]⟩

theorem openCommand_inv (r : Reply) (S : CoreState) (s : State) (hP : s.params.ok = true) (hA : S.Inv s.params)
    (hm : busy S = true → r.matchesPhase S.phase) : (openCommand r S s).Inv := by
  cases hb : busy S
  · rw [openCommand_idle s r S hb]
    exact respond_inv _ _ { s with arch := S } hP hA hb
  · rw [openCommand_busy s r S hb]
    exact ⟨hP, hA, by simp [hb], by simpa using hm hb⟩

/-! ### The work left -/

/-- A tick takes one off the work left, and the core is busy while there is work (70_reset_and_hazards.md R221). -/
theorem tick_work (P : Params) (S : CoreState) (hi : S.Inv P) (hb : busy S = true) :
    workLeft P (tick P S).1 + 1 = workLeft P S ∧ (busy (tick P S).1 = true ↔ workLeft P (tick P S).1 ≠ 0) := by
  obtain ⟨t1, t2, t3, t4⟩ := tick_inv P S hi hb
  have hn : S.Loading → S.nrem = 0 := by
    intro hl
    by_contra hh
    have := hi.2.2.2.2.1.2.2.2.2.1 hh
    obtain h | h | h := hl <;> simp [h] at this
  have hpos : ∀ S : CoreState, S.Inv P → S.Loading → workLeft P S ≠ 0 := by
    intro S hi hl
    have h5 := hi.2.2.2.2.1
    obtain h | h | h := hl
    · have := h5.1 h; simp [workLeft, h]; omega
    · have := h5.2.1 h; simp [workLeft, h]; omega
    · have := h5.2.2.1 h; simp [workLeft, h]; omega
  obtain h | h := t4
  · have h5 := hi.2.2.2.2.1
    obtain ⟨⟨-, hm, -⟩, -, ⟨hL, hw⟩ | ⟨hr, h0, hw⟩⟩ :=
      tick_loading_spec P S hi.2.2.2.2.2.1 hi.2.2.2.2.2.2.1 h ⟨h5.1, h5.2.1, h5.2.2.1⟩
    · exact ⟨hw, fun _ => hpos _ t1 hL, fun _ => busy_of_loading _ hL⟩
    · have : workLeft P (tick P S).1 = 0 := by simp [workLeft, hr, hm, hn h]
      refine ⟨by omega, ?_⟩
      simp [this, busy_of_ready _ hr (hm.trans (hn h))]
  · have hnr : S.nrem ≠ 0 := by
      obtain h' | h' | h' | h' := (busy_eq_true_iff _).1 hb
      · simp [h'] at h
      · simp [h'] at h
      · simp [h'] at h
      · exact h'
    rw [tick_run P S h]
    have : workLeft P S = S.nrem := by obtain h | h := h <;> simp [workLeft, h]
    rw [this]
    simp [workLeft, tickRun, busy]
    omega

/-! ### Accepting a command -/

@[simp] theorem accept_params (i : Instr) (s : State) : (accept i s).params = s.params := by
  cases i <;> simp only [accept, acceptInit, acceptStart, acceptNext, acceptNextn, acceptStatus, acceptSnap,
    opcodeError] <;> (try split) <;> (try split) <;> (try simp)
  all_goals (unfold combineX; split <;> simp)

@[simp] theorem accept_inputs (i : Instr) (s : State) : (accept i s).inputs = s.inputs := by
  cases i <;> simp only [accept, acceptInit, acceptStart, acceptNext, acceptNextn, acceptStatus, acceptSnap,
    opcodeError] <;> (try split) <;> (try split) <;> (try simp)
  all_goals (unfold combineX; split <;> simp)

/-- What the acceptance of a command can write to the state of the core. -/
theorem accept_frame (i : Instr) (s : State) :
    (∃ c, i = .init c ∧ wfCfg s.params c = true) ∨
    (∃ k f, i = .start k f ∧ s.arch.phase = .unloaded ∧
      (accept i s).arch =
        settle s.params { s.arch with keyL := k, frameL := f, phase := .loadKey, cnt := 0 }) ∨
    (∃ n, (accept i s).arch = { s.arch with nrem := n }) := by
  cases i
  case init c =>
    by_cases h : wfCfg s.params c = true
    · exact .inl ⟨c, rfl, h⟩
    · exact .inr (.inr ⟨_, by simp [accept, acceptInit, h]; rfl⟩)
  case start k f =>
    by_cases hp : s.arch.phase = .unloaded
    · by_cases hk : wfKeyFrame s.params k f = true
      · exact .inr (.inl ⟨k, f, rfl, hp, by simp [accept, acceptStart, hp, hk]⟩)
      · exact .inr (.inr ⟨_, by rw [accept, acceptStart, if_pos hp, if_neg hk]; rfl⟩)
    · exact .inr (.inr ⟨_, by simp [accept, acceptStart, hp]; rfl⟩)
  case next =>
    by_cases h : producesKeystream s.arch.phase = true
    · exact .inr (.inr ⟨1, by simp [accept, acceptNext, h]⟩)
    · exact .inr (.inr ⟨_, by simp [accept, acceptNext, h]; rfl⟩)
  case nextn n =>
    by_cases h : producesKeystream s.arch.phase = true
    · exact .inr (.inr ⟨n, by simp [accept, acceptNextn, h]⟩)
    · exact .inr (.inr ⟨_, by simp [accept, acceptNextn, h]; rfl⟩)
  case combine a b c d =>
    obtain ⟨st, pl, -, e⟩ := combineX_effect s a b c d
    exact .inr (.inr ⟨_, by rw [accept, e]; rfl⟩)
  case encrypt a b c d =>
    obtain ⟨st, pl, -, e⟩ := combineX_effect s a b c d
    exact .inr (.inr ⟨_, by rw [accept, e]; rfl⟩)
  case decrypt a b c d =>
    obtain ⟨st, pl, -, e⟩ := combineX_effect s a b c d
    exact .inr (.inr ⟨_, by rw [accept, e]; rfl⟩)
  all_goals exact .inr (.inr ⟨_, rfl⟩)

/-- The X-format operation on operands long enough for their lengths (44_host_commands.md R155). -/
theorem combineX_eq (tlen klen : Nat) (text ks : BitSeq) (s : State)
    (ht : tlen ≤ text.length) (hk : klen ≤ ks.length) :
    (tlen = klen → combineX tlen klen text ks s = { s with
      rsp := some ⟨.ok, s.arch.phase, .text (List.zipWith Bool.xor (text.take tlen) (ks.take klen))⟩
      inFlight := none }) ∧
    (tlen ≠ klen → combineX tlen klen text ks s = { s with
      rsp := some ⟨.errLength, s.arch.phase, .none⟩, inFlight := none }) := by
  have l1 : (text.take tlen).length = tlen := by simp [ht]
  have l2 : (ks.take klen).length = klen := by simp [hk]
  refine ⟨fun h => ?_, fun h => ?_⟩
  · rw [combineX, sampled, sampled, xorSeq_of_length_eq (by rw [l1, l2, h])]; rfl
  · rw [combineX, sampled, sampled, xorSeq_of_length_ne (by rw [l1, l2]; exact h)]; rfl

/-! ### Bits of a number -/

theorem testBit_natOfBits (s : BitSeq) (i : Nat) : (natOfBits s).testBit i = bitAt s i := by
  induction s generalizing i with
  | nil => simp [natOfBits, bitAt]
  | cons b s ih =>
    cases i with
    | zero => cases b <;> simp [natOfBits, Nat.testBit_zero]
    | succ i =>
      rw [Nat.testBit_succ, bitAt_cons_succ, ← ih]
      congr 1
      cases b <;> simp [natOfBits]; omega

end Sys2Proof.Machine
end

