-- ==== Sys2Proof/Laws/PerInstr.lean ====
section
/-! SUPPORT. One lemma per constructor of Instr: an encoded command has the length its opcode announces
(spec/30_encoding.md R60, R64). -/

namespace Sys2Proof.Laws.EncodeWidth

open Sys2Proof

/-- The encoded command is its four opcode bits and exactly its format's operand bits. -/
def Statement (i : Instr) : Prop := ∀ P : Params, (encodeBits P i).length = commandLength P i.opcode

theorem status : Statement .status := fun _ => rfl
theorem init (c : Cfg) : Statement (.init c) := fun P => by
  simp [encodeBits, encode, Ports.toBits, Ports.operandBits, Ports.zero, commandLength, Instr.opcode,
    opcodeFormat, operandWidth]
theorem start (key frame : BitSeq) : Statement (.start key frame) := fun P => by
  simp [encodeBits, encode, Ports.toBits, Ports.operandBits, Ports.zero, commandLength, Instr.opcode,
    opcodeFormat, operandWidth]
theorem next : Statement .next := fun _ => rfl
theorem nextn (n : Nat) : Statement (.nextn n) := fun P => by
  simp [encodeBits, encode, Ports.toBits, Ports.operandBits, Ports.zero, commandLength, Instr.opcode,
    opcodeFormat, operandWidth]
theorem combine (tlen klen : Nat) (text ks : BitSeq) : Statement (.combine tlen klen text ks) := fun P => by
  simp [encodeBits, encode, encodeX, Ports.toBits, Ports.operandBits, Ports.zero, commandLength,
    Instr.opcode, opcodeFormat, operandWidth]
  omega
theorem encrypt (tlen klen : Nat) (text ks : BitSeq) : Statement (.encrypt tlen klen text ks) := fun P => by
  simp [encodeBits, encode, encodeX, Ports.toBits, Ports.operandBits, Ports.zero, commandLength,
    Instr.opcode, opcodeFormat, operandWidth]
  omega
theorem decrypt (tlen klen : Nat) (text ks : BitSeq) : Statement (.decrypt tlen klen text ks) := fun P => by
  simp [encodeBits, encode, encodeX, Ports.toBits, Ports.operandBits, Ports.zero, commandLength,
    Instr.opcode, opcodeFormat, operandWidth]
  omega
theorem snap : Statement .snap := fun _ => rfl
theorem reserved9 : Statement .reserved9 := fun _ => rfl
theorem reservedA : Statement .reservedA := fun _ => rfl
theorem reservedB : Statement .reservedB := fun _ => rfl
theorem reservedC : Statement .reservedC := fun _ => rfl
theorem reservedD : Statement .reservedD := fun _ => rfl
theorem reservedE : Statement .reservedE := fun _ => rfl
theorem reservedF : Statement .reservedF := fun _ => rfl

end Sys2Proof.Laws.EncodeWidth
end

