-- ==== Sys2Proof/Tests/Slice0.lean ====
section
/-! SUPPORT. Tests against the vectors of spec/95_test_vectors.md (each names its vector), the ill-formed
terms WellFormed refuses, and a witness for the hypotheses of every obligation that has some. -/

namespace Sys2Proof.Tests

open Sys2Proof Sys2Proof.Machine

/-! ### Small instances and states -/

/-- The parameters of V5 and P3. -/
def smallParams : Params := { Params.reference with keyLen := 4, frameLen := 2, warmupN := 2 }

/-- The configuration of V5, from its fields. -/
def smallCfg : Cfg :=
  { e1 := { len := 5, clk := 2, out := 0, taps := bitsOfNat 32 0x5 }
    e2 := { len := 6, clk := 3, out := 0, taps := bitsOfNat 32 0x3 }
    e3 := { len := 7, clk := 3, out := 0, taps := bitsOfNat 32 0xB } }

/-- Registers of V5's lengths from their hexadecimal values. -/
def smallRegs (a b c : Nat) : Regs := ⟨bitsOfNat 5 a, bitsOfNat 6 b, bitsOfNat 7 c⟩

/-- An instance of V5 that holds this phase, these counters and these registers. -/
def small (phase : Phase) (cnt nrem a b c : Nat) : State :=
  { State.resetOf smallParams with
    arch :=
      { CoreState.resetOf smallParams with
        cfg := smallCfg, regs := smallRegs a b c, phase := phase, cnt := cnt, nrem := nrem
        keyL := bitsOfNat 4 0xD, frameL := bitsOfNat 2 0x2 } }

/-- V5 after tick 0, after tick 8, after tick 9. -/
def unloaded : State := small .unloaded 0 0 0 0 0
def ready : State := small .ready 0 0 0x09 0x33 0x3D
def running : State := small .running 0 0 0x14 0x19 0x3D

/-- The same with the response owed that a busy state owes. -/
def owing (r : Reply) (s : State) : State := { s with inFlight := some ⟨r, []⟩ }

/-- Registers of the reference geometry. -/
def a51Regs (a b c : Nat) : Regs := ⟨bitsOfNat 19 a, bitsOfNat 22 b, bitsOfNat 23 c⟩

/-- A default instance of the reference geometry in this phase with these registers. -/
def a51 (phase : Phase) (a b c : Nat) : State :=
  { State.reset with
    arch :=
      { CoreState.resetOf Params.reference with
        cfg := cfgA51 Params.reference, regs := a51Regs a b c, phase := phase } }

/-- The state a command leaves, when it leaves one. -/
def after (i : Instr) (s : State) : Option State :=
  match exec i s with
  | .next t => some t
  | _ => none

/-- The response a command answers with. -/
def answer (i : Instr) (s : State) : Option Response := (after i s).bind (·.rsp)

/-- The registers a command leaves. -/
def regsAfter (i : Instr) (s : State) : Option Regs := (after i s).map (·.arch.regs)

/-- The state a whole step leaves. -/
def stepped (s : State) : Option State :=
  match step s with
  | .next t => some t
  | _ => none

/-- The X-format operands of section 2.4, which stand on ports CMAX = 255 bits wide. -/
def port (v : Nat) : BitSeq := bitsOfNat 255 v

/-! ### WellFormed refuses each ill-formed term -/

theorem test_wf_refuses_len_too_wide :
    (Instr.init { smallCfg with e1 := { smallCfg.e1 with len := 64 } }).wf smallParams = false := by decide
theorem test_wf_refuses_clk_too_wide :
    (Instr.init { smallCfg with e2 := { smallCfg.e2 with clk := 32 } }).wf smallParams = false := by decide
theorem test_wf_refuses_out_too_wide :
    (Instr.init { smallCfg with e3 := { smallCfg.e3 with out := 32 } }).wf smallParams = false := by decide
theorem test_wf_refuses_short_mask :
    (Instr.init { smallCfg with e3 := { smallCfg.e3 with taps := zeros 31 } }).wf smallParams = false := by
  decide
theorem test_wf_refuses_short_key : (Instr.start (zeros 3) (zeros 2)).wf smallParams = false := by decide
theorem test_wf_refuses_long_frame : (Instr.start (zeros 4) (zeros 3)).wf smallParams = false := by decide
theorem test_wf_refuses_count_too_wide : (Instr.nextn 65536).wf smallParams = false := by decide
theorem test_wf_refuses_tlen_too_wide :
    (Instr.combine 256 0 (zeros 255) (zeros 255)).wf smallParams = false := by decide
theorem test_wf_refuses_klen_too_wide :
    (Instr.encrypt 0 256 (zeros 255) (zeros 255)).wf smallParams = false := by decide
theorem test_wf_refuses_short_text :
    (Instr.decrypt 0 0 (zeros 254) (zeros 255)).wf smallParams = false := by decide +kernel
theorem test_wf_refuses_short_keystream :
    (Instr.decrypt 0 0 (zeros 255) (zeros 254)).wf smallParams = false := by decide +kernel

/-! ### Decoding: words written out from 30_encoding.md R62, R63, R66, R67 and R74 -/

/-- P4 line 1 and K1: `cmd_op` alone. -/
theorem test_decode_format_Z :
    decodeTableWord 4 0x0 = some .status ∧ decodeTableWord 4 0x3 = some .next ∧
    decodeTableWord 4 0x8 = some .snap := by decide +kernel

/-- P1 line 1: `cmd_op=0x1`, `cfg_in=0x0000800703170000000302D6000000270293`, against the fields of R8. -/
theorem test_decode_init :
    decodeTableWord 148 (0x1 + 0x0000800703170000000302D6000000270293 * 2 ^ 4) =
      some (.init
        { e1 := ⟨19, 10, 0, bitsOfNat 32 0x00000027⟩
          e2 := ⟨22, 11, 0, bitsOfNat 32 0x00000003⟩
          e3 := ⟨23, 12, 0, bitsOfNat 32 0x00008007⟩ }) := by decide +kernel

/-- V4's key and frame. -/
theorem test_decode_start :
    decodeTableWord 90 (0x2 + 0xEFCDAB8967452312 * 2 ^ 4 + 0x000134 * 2 ^ 68) =
      some (.start (bitsOfNat 64 0xEFCDAB8967452312) (bitsOfNat 22 0x000134)) := by decide +kernel

/-- P1 line 5: `cmd_op=0x4`, `n_in=0x0010`; and the largest count. -/
theorem test_decode_nextn :
    decodeTableWord 20 0x00104 = some (.nextn 16) ∧ decodeTableWord 20 0xFFFF4 = some (.nextn 65535) := by
  decide +kernel

/-- P3 line 7, P2 lines 5 and 6. -/
theorem test_decode_format_X :
    decodeTableWord 530 (0x5 + 6 * 2 ^ 4 + 6 * 2 ^ 12 + 0x15 * 2 ^ 20 + 0x2C * 2 ^ 275) =
      some (.combine 6 6 (port 0x15) (port 0x2C)) ∧
    decodeTableWord 530 (0x6 + 32 * 2 ^ 4 + 32 * 2 ^ 12 + 0xDEADBEEF * 2 ^ 20 + 0xB372BAA6 * 2 ^ 275) =
      some (.encrypt 32 32 (port 0xDEADBEEF) (port 0xB372BAA6)) ∧
    decodeTableWord 530 (0x7 + 32 * 2 ^ 4 + 31 * 2 ^ 12 + 0x6DDF0449 * 2 ^ 20 + 0xB372BAA6 * 2 ^ 275) =
      some (.decrypt 32 31 (port 0x6DDF0449) (port 0xB372BAA6)) := by decide +kernel

/-- R63: `0x9` to `0xF`. -/
theorem test_decode_reserved :
    decodeTableWord 4 0x9 = some .reserved9 ∧ decodeTableWord 4 0xA = some .reservedA ∧
    decodeTableWord 4 0xB = some .reservedB ∧ decodeTableWord 4 0xC = some .reservedC ∧
    decodeTableWord 4 0xD = some .reservedD ∧ decodeTableWord 4 0xE = some .reservedE ∧
    decodeTableWord 4 0xF = some .reservedF := by decide +kernel

/-- E6: every field at its maximum. E10: OUT. -/
theorem test_decode_entry :
    decodeEntry Params.reference (bitsOfNat 48 0xFFFFFFFFFFE0) = ⟨32, 31, 31, bitsOfNat 32 0xFFFFFFFF⟩ ∧
    decodeEntry Params.reference (bitsOfNat 48 0x000000019813) = ⟨19, 0, 19, bitsOfNat 32 0x1⟩ := by decide

/-- V5's entries, encoded. -/
theorem test_encode_cfg :
    natOfBits (encodeCfg smallParams smallCfg) = 0x0000000B00C70000000300C6000000050085 := by decide +kernel

/-- Streams that stop inside a command. -/
theorem test_decode_truncated :
    decodeBits smallParams (zeros 3) = .error .noOpcode ∧
    decodeBits smallParams (bitsOfNat 9 0x2) = .error .truncatedOperands := by decide

/-! ### Components -/

/-- The table of 00_scope.md R6: derived widths; 90_conflicts.md C10: IDXW of LMAX = 1. -/
theorem test_derived_widths :
    Params.reference.lenw = 6 ∧ Params.reference.idxw = 5 ∧ Params.reference.cew = 48 ∧
    Params.reference.cmax = 255 ∧ ({ Params.reference with lmax := 1 } : Params).idxw = 1 := by decide

/-- E1 to E7. -/
theorem test_wf_accepts :
    ∀ v ∈ [0x000000270293, 0x0000000302D6, 0x000080070317, 0x000000050085, 0x000000002005, 0xFFFFFFFFFFE0,
      0x000000010001], wfEntry Params.reference (decodeEntry Params.reference (bitsOfNat 48 v)) = true := by
  decide +kernel

/-- E8 to E12. -/
theorem test_wf_rejects :
    ∀ v ∈ [0x000000000000, 0x0000000104D3, 0x000000019813, 0x000800010293, 0x000000010021],
      wfEntry Params.reference (decodeEntry Params.reference (bitsOfNat 48 v)) = false := by decide +kernel

/-- S1, rows 1 and 3. -/
theorem test_shift1 :
    shift1 (cfgA51 Params.reference).e1 (bitsOfNat 19 0x45A89) false = (bitsOfNat 19 0x62D44, true) ∧
    shift1 (cfgA51 Params.reference).e3 (bitsOfNat 23 0x31C820) true = (bitsOfNat 23 0x18E410, false) := by
  decide

/-- S3. -/
theorem test_shift_by_n :
    (List.range 4).map (shiftN smallCfg.e1 (bitsOfNat 5 0x0D)) =
      [(bitsOfNat 5 0x0D, true), (bitsOfNat 5 0x06, true), (bitsOfNat 5 0x13, false),
        (bitsOfNat 5 0x19, true)] := by decide

/-- M3. -/
theorem test_clock_bits :
    clockBits (cfgA51 Params.reference) (a51Regs 0x1D191 0x1FFFFC 0x5045BB) = ⟨false, true, false⟩ ∧
    clockBits (cfgA51 Params.reference) (a51Regs 0x62D44 0x320001 0x6C7208) = ⟨true, false, true⟩ ∧
    enables ⟨true, false, true⟩ = (true, ⟨true, false, true⟩) := by decide

/-- V5, ticks 4 and 7. -/
theorem test_load_bit_and_step :
    loadBit smallCfg (smallRegs 0x14 0x28 0x50) true = smallRegs 0x0A 0x34 0x68 ∧
    cipherStep smallCfg (smallRegs 0x12 0x0D 0x7A) = (smallRegs 0x12 0x26 0x3D, true) := by decide

/-- V7, ticks 9 and 10: output taps not at index 0. -/
theorem test_output_taps :
    let c : Cfg := ⟨⟨5, 0, 4, zeros 32⟩, ⟨5, 0, 2, bitsOfNat 32 1⟩, ⟨5, 0, 0, bitsOfNat 32 5⟩⟩
    let R : Nat → Nat → Nat → Regs := fun x y z => ⟨bitsOfNat 5 x, bitsOfNat 5 y, bitsOfNat 5 z⟩
    cipherStep c (R 0x05 0x11 0x14) = (R 0x02 0x18 0x14, false) ∧
    cipherStep c (R 0x02 0x18 0x14) = (R 0x01 0x0C 0x1A, true) := by decide

/-! ### Commands -/

/-- K1; and a busy phase never shows in it. -/
theorem test_status :
    answer .status State.reset = some ⟨.ok, .unbuilt, .none⟩ ∧
    answer .status ready = some ⟨.ok, .ready, .none⟩ := by decide

/-- K5 and K13: the registers zero, of the new lengths. -/
theorem test_init :
    answer (.init (cfgA51 Params.reference)) State.reset = some ⟨.ok, .unloaded, .none⟩ ∧
    regsAfter (.init (cfgA51 Params.reference)) (a51 .running 0x62D44 0x240002 0x58E410) =
      some (a51Regs 0 0 0) := by decide

/-- K11: entry E9 for register 1. -/
theorem test_init_malformed :
    let c : Cfg := { smallCfg with e1 := ⟨19, 19, 0, bitsOfNat 32 1⟩ }
    answer (.init c) running = some ⟨.errConfig, .running, .none⟩ ∧
    (after (.init c) running).map (·.arch) = some running.arch := by decide

/-- K7 (V2): the golden vector of the document's scenario 2, after 186 ticks. -/
theorem test_start_golden :
    regsAfter (.start (bitsOfNat 64 0xAAAAAAAAAAAAAAAA) (zeros 22)) (a51 .unloaded 0 0 0) =
      some (a51Regs 0x45A89 0x080005 0x31C820) := by decide +kernel

/-- P3 line 2; K10. -/
theorem test_start :
    (after (.start (bitsOfNat 4 0xD) (bitsOfNat 2 0x2)) unloaded).map (·.arch) = some ready.arch ∧
    answer (.start (zeros 4) (zeros 2)) running = some ⟨.errPhase, .running, .none⟩ := by decide

/-- P3 line 4; K3. -/
theorem test_next :
    after .next ready = some { running with rsp := some ⟨.ok, .running, .bit false⟩ } ∧
    answer .next State.reset = some ⟨.errPhase, .unbuilt, .none⟩ := by decide

/-- K9: the same on the reference geometry. -/
theorem test_next_a51 :
    regsAfter .next (a51 .ready 0x45A89 0x080005 0x31C820) = some (a51Regs 0x62D44 0x240002 0x58E410) := by
  decide

/-- P3 line 6; K8; K6: the phase check precedes the count. -/
theorem test_nextn :
    after (.nextn 4) (small .running 0 0 0x1A 0x2C 0x1E) =
      some { small .running 0 0 0x06 0x2A 0x23 with
        rsp := some ⟨.ok, .running, .keystream [true, true, false, true]⟩ } ∧
    after (.nextn 0) ready = some { ready with rsp := some ⟨.ok, .ready, .keystream []⟩ } ∧
    answer (.nextn 0) unloaded = some ⟨.errPhase, .unloaded, .none⟩ := by decide

/-- V2: the first eight keystream bits, `<01100101>` = `0xA6`. -/
theorem test_nextn_a51 :
    answer (.nextn 8) (a51 .ready 0x45A89 0x080005 0x31C820) =
      some ⟨.ok, .running, .keystream (bitsOfNat 8 0xA6)⟩ := by decide +kernel

/-- X1, X8 on the response ports. -/
theorem test_combine :
    (answer (.combine 8 8 (port 0x53) (port 0xA6)) State.reset).map (fun r => (r.lenOut, r.dataOut)) =
      some (8, 0xF5) ∧
    (answer (.combine 4 4 (port 0xFFF3) (port 0xAB5)) running).map (fun r => (r.lenOut, r.dataOut)) =
      some (4, 0x6) := by decide +kernel

/-- X6 and X7: length 0. -/
theorem test_combine_empty :
    answer (.combine 0 0 (port 1) (port 3)) running = some ⟨.ok, .running, .text []⟩ ∧
    answer (.combine 0 1 (port 1) (port 3)) running = some ⟨.errLength, .running, .none⟩ := by decide

/-- P2 line 5; X5. -/
theorem test_encrypt :
    (answer (.encrypt 32 32 (port 0xDEADBEEF) (port 0xB372BAA6)) running).map (·.dataOut) =
      some 0x6DDF0449 ∧
    answer (.encrypt 40 39 (port 1) (port 1)) running = some ⟨.errLength, .running, .none⟩ := by
  decide +kernel

/-- P2 line 6. -/
theorem test_decrypt :
    (answer (.decrypt 32 32 (port 0x6DDF0449) (port 0xB372BAA6)) running).map (·.dataOut) =
      some 0xDEADBEEF := by decide +kernel

/-- P3 line 3, P2 line 3; K2. -/
theorem test_snap :
    (answer .snap ready).map (Response.snapOut smallParams) = some 0x0000003D0000003300000009 ∧
    (answer .snap (a51 .ready 0x45A89 0x080005 0x31C820)).map (Response.snapOut Params.reference) =
      some 0x0031C8200008000500045A89 ∧
    (answer .snap State.reset).map (Response.snapOut Params.reference) = some 0 := by decide +kernel

/-- K12. -/
theorem test_reserved :
    after .reservedB running = some { running with rsp := some ⟨.errOpcode, .running, .none⟩ } ∧
    answer .reserved9 State.reset = some ⟨.errOpcode, .unbuilt, .none⟩ ∧
    answer .reservedF ready = some ⟨.errOpcode, .ready, .none⟩ := by decide

/-- K14, in the middle of loading. -/
theorem test_hardware_reset :
    stepped { owing .plain (small .loadKey 3 0 0x14 0x28 0x50) with inputs := [.reset] } =
      some (State.resetOf smallParams) := by decide

/-- R200, `rst = 1` while the response to STATUS stands: cmd_ready, rsp_valid and ks_valid are 0; with nothing
presented the first two are 1 (R70). -/
theorem test_reset_gates_outputs :
    let s : State := cycle { ready with inputs := [.command (Ports.zero 0x0#4), .reset] }
    s.rsp = some ⟨.ok, .ready, .none⟩ ∧ rst s = true ∧ cmdReady s = false ∧ rspValid s = false ∧
    ksValid (emission s) = false ∧ rspValid { s with inputs := [] } = true ∧
    cmdReady { s with inputs := [] } = true := by decide +kernel

/-- V5, tick 6, at the level of ticks: the last frame bit, then warm-up, no response yet. -/
theorem test_tick :
    let t := cycle (owing .plain (small .loadFrame 1 0 0x05 0x1A 0x74))
    t.arch = (small .warmup 0 0 0x12 0x0D 0x7A).arch ∧ t.rsp = none ∧ busyOut t = true := by decide

/-- V5, tick 9: one keystream bit and the response. -/
theorem test_emission :
    let s := owing .oneBit (small .ready 0 1 0x09 0x33 0x3D)
    emission s = some false ∧ (cycle s).rsp = some ⟨.ok, .running, .bit false⟩ := by decide

/-- 00_scope.md R6 and R7: a key length that needs more than NW bits. -/
theorem test_build_instance :
    buildInstance { Params.reference with keyLen := 65536 } = none ∧
    buildInstance { Params.reference with keyLen := 0, frameLen := 0, warmupN := 0, nw := 1 } ≠ none := by
  decide

/-- The word of `withFetchWord` is the next command step runs: NEXT on P3's READY state. -/
theorem test_fetch_word :
    (stepped (ready.withFetchWord 4 0x3)).map (·.arch) = some running.arch := by decide +kernel

/-- CRYPT (30_encoding.md R75) on V5's ticks 11 to 13: `<101> ^ <110>`. -/
theorem test_crypt :
    (match crypt 3 (port 0x5) (small .running 0 0 0x1A 0x2C 0x1E) with
      | .next t => t.rsp
      | _ => none) = some ⟨.ok, .running, .text [false, true, true]⟩ := by decide +kernel

/-! ### Witnesses: states and operands that meet the hypotheses of the obligations -/

/-- Commands with every operand at a boundary of its port. -/
def boundaryCommands : List Instr :=
  [.status, .init (decodeCfg smallParams (bitsOfNat 144 (2 ^ 144 - 1))), .init smallCfg,
    .start (bitsOfNat 4 0xF) (zeros 2), .next, .nextn 0, .nextn 65535, .combine 255 0 (port 1) (port 0),
    .encrypt 0 255 (port 0) (port 1), .decrypt 255 255 (port 0) (port 0), .snap, .reserved9, .reservedA,
    .reservedB, .reservedC, .reservedD, .reservedE, .reservedF]

/-- DecodeOfEncodeIsTheCommand, EncodedStreamDecodesBack, CommandAgainstPhaseTable. -/
theorem test_witness_well_formed_commands :
    (∀ i ∈ boundaryCommands, i.wf smallParams = true) ∧ unloaded.params = smallParams ∧
    idle unloaded.arch = true := by decide +kernel

/-- EntryLayout. -/
theorem test_witness_entry_width : (bitsOfNat 48 0xFFFFFFFFFFE0).length = Params.reference.cew := by decide

/-- UnsampledPortsAreIgnored, for a command of each format: every port the format does not list differs. -/
theorem test_witness_unsampled_ports :
    let zero : BitVec 4 → Ports := Ports.zero
    let ones : BitVec 4 → Ports := fun op => ⟨op, 1, 1, 1, 1, 1, 1, 1, 1⟩
    idle ready.arch = true ∧ opcodeFormat 0x3#4 = .Z ∧ opcodeFormat 0x1#4 = .C ∧ opcodeFormat 0x2#4 = .K ∧
    opcodeFormat 0x4#4 = .N ∧ opcodeFormat 0x7#4 = .X ∧ (zero 0x3#4).cmdOp = (ones 0x3#4).cmdOp ∧
    (zero 0x1#4).cfgIn = ({ ones 0x1#4 with cfgIn := 0 } : Ports).cfgIn ∧
    (zero 0x4#4).nIn = ({ ones 0x4#4 with nIn := 0 } : Ports).nIn := by decide

/-- HardwareResetFromAnyState: idle, with a response standing, and in the middle of a command. -/
theorem test_witness_reset_presented :
    ({ ready with inputs := [.reset] } : State).inputs = .reset :: [] ∧
    ({ ready with rsp := some ⟨.ok, .ready, .none⟩, inputs := [.reset] } : State).inputs = .reset :: [] ∧
    ({ owing .plain (small .loadKey 3 0 0x14 0x28 0x50) with inputs := [.reset, .quiet] } : State).inputs =
      .reset :: [.quiet] := by decide

/-- The reset state, and V5 in every phase, counters at their bounds. -/
def invariantStates : List State :=
  [State.reset, unloaded, ready, running, owing .plain (small .loadKey 0 0 0 0 0),
    owing .plain (small .loadKey 3 0 0x14 0x28 0x50), owing .plain (small .loadFrame 1 0 0x05 0x1A 0x74),
    owing .plain (small .warmup 0 0 0x12 0x0D 0x7A), owing .plain (small .warmup 1 0 0x12 0x26 0x3D),
    owing .oneBit (small .ready 0 1 0x09 0x33 0x3D), owing .bits (small .running 0 65535 0x14 0x19 0x3D)]

/-- StepKeepsTheInvariant, CycleKeepsTheInvariant, ResponsesShowOnlyIdlePhases (the last step of NEXT
answers). -/
theorem test_witness_invariant :
    (∀ s ∈ invariantStates, s.Inv ∧ stepped s ≠ none) ∧
    (stepped (owing .oneBit (small .ready 0 1 0x09 0x33 0x3D))).bind (·.rsp) =
      some ⟨.ok, .running, .bit false⟩ := by decide +kernel

/-- ResetMeetsTheInvariant, ReachableStatesSatisfyR33: a legal instance with nothing to load, and at the
bounds. -/
theorem test_witness_legal_instances :
    Params.reference.ok = true ∧ smallParams.ok = true ∧ (⟨0, 0, 0, 1, 1, 1⟩ : Params).ok = true ∧
    (⟨65535, 65535, 65535, 32, 16, 8⟩ : Params).ok = true := by decide

/-- Shift1MovesAndInjects, LoadBitShiftsEveryRegister: one-bit registers, and V5's. -/
theorem test_witness_nonempty_registers :
    (bitsOfNat 1 1 : BitSeq) ≠ [] ∧ (smallRegs 0x14 0x28 0x50).r1 ≠ [] ∧
    (smallRegs 0x14 0x28 0x50).r2 ≠ [] ∧ (smallRegs 0x14 0x28 0x50).r3 ≠ [] := by decide

/-- Shift1IsLinear (S6), XorSeqIsBitwise: equal and different lengths, 0 among them. -/
theorem test_witness_lengths :
    (bitsOfNat 19 0x45A89).length = (bitsOfNat 19 0x1D191).length ∧ ([] : BitSeq).length = (zeros 0).length ∧
    (zeros 0).length ≠ (zeros 1).length ∧ (zeros 40).length ≠ (zeros 39).length := by decide

/-- AllZeroIsAFixedPoint, KeySetupForgetsThePast, NewCipherReturnsAReadyCipher, InitConstructs: well-formed
and malformed (E9) configurations, keys and frames of the instance's lengths. -/
theorem test_witness_configurations :
    wfCfg smallParams smallCfg = true ∧
    wfCfg smallParams { smallCfg with e1 := ⟨19, 19, 0, bitsOfNat 32 1⟩ } = false ∧
    (bitsOfNat 4 0xD).length = smallParams.keyLen ∧ (bitsOfNat 2 0x2).length = smallParams.frameLen ∧
    idle running.arch = true ∧ running.params = smallParams := by decide

/-- CombiningTwiceGivesTheText (43_combiner.md R141's example). -/
theorem test_witness_xor_seq :
    xorSeq [true, true, false, false] [true, false, true, false] = .ok [false, true, true, false] := by
  decide

/-- TickIsOneLoadOrOneStep (every busy phase, nrem 1 the least), SettleLeavesFinishedPhases: every phase,
finished and unfinished. -/
theorem test_witness_phases :
    (small .loadKey 0 0 0 0 0).arch.phase = .loadKey ∧ (small .loadKey 4 0 0 0 0).arch.cnt = smallParams.keyLen ∧
    (small .loadFrame 2 0 0 0 0).arch.phase = .loadFrame ∧
    (small .loadFrame 2 0 0 0 0).arch.cnt = smallParams.frameLen ∧
    (small .warmup 2 0 0 0 0).arch.phase = .warmup ∧ (small .warmup 2 0 0 0 0).arch.cnt = smallParams.warmupN ∧
    (small .ready 0 1 0 0 0).arch.phase = .ready ∧ (small .running 0 1 0 0 0).arch.phase = .running ∧
    (∀ s ∈ [small .loadKey 0 0 0 0 0, small .loadFrame 1 0 0 0 0, small .warmup 1 0 0 0 0, small .ready 0 1 0 0 0,
      small .running 0 1 0 0 0], busy s.arch = true) ∧
    ¬((small .loadKey 3 0 0 0 0).arch.cnt = smallParams.keyLen) := by decide

/-- BusyCoreBecomesIdle: START's first tick, and the largest NEXTN. -/
theorem test_witness_busy_invariant :
    ∀ s ∈ [{ owing .plain (small .loadKey 0 0 0 0 0) with inputs := [.quiet] },
        owing .bits (small .running 0 65535 0x14 0x19 0x3D)],
      s.Inv ∧ busy s.arch = true ∧ ∀ x ∈ s.inputs, x = .quiet := by decide +kernel

/-- OnlyReadyAndRunningEmit, BusyCoreSamplesNoCommand. -/
theorem test_witness_busy :
    emission (owing .bits (small .running 0 65535 0x14 0x19 0x3D)) ≠ none ∧
    busy (small .loadKey 0 0 0 0 0).arch = true ∧
    ({ small .loadKey 0 0 0 0 0 with inputs := [.command (Ports.zero 0x3#4)] } : State).inputs =
      .command (Ports.zero 0x3#4) :: [] := by decide +kernel

/-- PhaseTransitionsFollowTheTable: each event, and each tick row at its last and another tick. -/
theorem test_witness_transitions :
    nextEvent { ready with inputs := [.reset] } = .reset ∧ nextEvent ready = .wait ∧
    nextEvent (owing .plain (small .loadKey 3 0 0x14 0x28 0x50)) = .tick ∧ 3 + 1 = smallParams.keyLen ∧
    nextEvent (owing .plain (small .loadFrame 1 0 0x05 0x1A 0x74)) = .tick ∧ 1 + 1 = smallParams.frameLen ∧
    nextEvent (owing .plain (small .warmup 1 0 0x12 0x26 0x3D)) = .tick ∧ 1 + 1 = smallParams.warmupN ∧
    nextEvent (owing .plain (small .warmup 0 0 0x12 0x0D 0x7A)) = .tick ∧ 0 + 1 ≠ smallParams.warmupN ∧
    nextEvent (owing .oneBit (small .ready 0 1 0x09 0x33 0x3D)) = .tick ∧
    nextEvent { ready with inputs := [.command (Ports.zero 0x1#4)] } = .command (Ports.zero 0x1#4) ∧
    decode smallParams (Ports.zero 0x2#4) = .start (zeros 4) (zeros 2) ∧
    decode smallParams (Ports.zero 0x8#4) = .snap := by decide +kernel

/-- TicksAgreeWithWholeCommands (8 ticks, 1 tick, none), WarmupIsNeverObserved,
StepRunsTheDecodedCommand. -/
theorem test_witness_presented :
    let start : State := { unloaded with inputs := [.command (encode smallParams (.start (bitsOfNat 4 0xD) (zeros 2)))] }
    start.Inv ∧ idle start.arch = true ∧ start.arch.phase = .unloaded ∧
    decode smallParams (encode smallParams (.start (bitsOfNat 4 0xD) (zeros 2))) =
      .start (bitsOfNat 4 0xD) (zeros 2) ∧
    tickCount (.start (bitsOfNat 4 0xD) (zeros 2)) start = 8 ∧ tickCount .next ready = 1 ∧
    tickCount .status ready = 0 ∧ ready.inputs = [] := by decide +kernel

/-- EveryCommandIsAnswered, StatusReportsThePhase, ReservedOpcodesAnswerAnError: every idle phase. -/
theorem test_witness_idle :
    idle State.reset.arch = true ∧ idle unloaded.arch = true ∧ idle ready.arch = true ∧
    idle running.arch = true := by decide

/-- ErrorsArePrecise, CommandAgainstPhaseTable: each of the four errors, of well-formed commands. -/
theorem test_witness_errors :
    answer (.init { smallCfg with e1 := zeroEntry smallParams }) ready = some ⟨.errConfig, .ready, .none⟩ ∧
    answer (.combine 0 1 (port 0) (port 0)) ready = some ⟨.errLength, .ready, .none⟩ ∧
    answer (.start (zeros 4) (zeros 2)) ready = some ⟨.errPhase, .ready, .none⟩ ∧
    answer .reservedC ready = some ⟨.errOpcode, .ready, .none⟩ ∧
    ∀ i ∈ [.init { smallCfg with e1 := zeroEntry smallParams }, .combine 0 1 (port 0) (port 0),
      .start (zeros 4) (zeros 2), Instr.reservedC], i.wf smallParams = true := by decide +kernel

/-- OnlyInitWritesTheConfiguration, OnlyStartWritesTheLatches, OnlyInitAndTicksWriteTheRegisters: cycles
that do write them. -/
theorem test_witness_writes :
    let init : State := { State.resetOf smallParams with inputs := [.command (encode smallParams (.init smallCfg))] }
    let start : State := { unloaded with inputs := [.command (encode smallParams (.start (zeros 4) (bitsOfNat 2 1)))] }
    let tick : State := owing .oneBit (small .ready 0 1 0x09 0x33 0x3D)
    (cycle init).arch.cfg ≠ init.arch.cfg ∧ (cycle init).arch.regs ≠ init.arch.regs ∧
    (cycle start).arch.keyL ≠ start.arch.keyL ∧ (cycle start).arch.frameL ≠ start.arch.frameL ∧
    (cycle tick).arch.regs ≠ tick.arch.regs := by decide +kernel

/-- CommandsAreFunctionsOfTheCoreState: two states that differ only at the ports. -/
theorem test_witness_same_core_state :
    let s : State := { ready with inputs := [.quiet], rsp := some ⟨.ok, .ready, .none⟩ }
    s.params = ready.params ∧ s.arch = ready.arch ∧ s ≠ ready ∧ after .next s ≠ none ∧
    after .next ready ≠ none := by decide

/-- StartLoadsAndWarmsUp: both phases; StartOfWrongLengthIsConfigError: a key one bit short, a frame one
bit long, both phases. -/
theorem test_witness_start :
    unloaded.arch.phase = .unloaded ∧ ready.arch.phase ≠ .unloaded ∧
    (zeros 4).length = unloaded.params.keyLen ∧ (zeros 2).length = unloaded.params.frameLen ∧
    (zeros 3).length ≠ unloaded.params.keyLen ∧ (zeros 3).length ≠ unloaded.params.frameLen ∧
    idle unloaded.arch = true ∧ idle ready.arch = true ∧ ready.params = unloaded.params := by decide

/-- NextProducesOneBit, NextnProducesKeystream, NextnIsRepeatedNext, CryptXorsTheKeystream: every idle
phase, a count of 0 and the largest. -/
theorem test_witness_keystream :
    ready.arch.phase = .ready ∧ running.arch.phase = .running ∧ State.reset.arch.phase = .unbuilt ∧
    unloaded.arch.phase = .unloaded ∧ 0 ≤ ready.params.cmax ∧ 255 ≤ ready.params.cmax ∧
    (port 0).length = ready.params.cmax := by decide +kernel

/-- CombineXorsItsOperands, EncryptAndDecryptXorTheirOperands, DecryptInvertsEncrypt,
CombinerResponsePorts: lengths 0 and CMAX, equal and different. -/
theorem test_witness_combiner :
    idle ready.arch = true ∧ 0 ≤ (port 1).length ∧ 255 ≤ (port 1).length ∧ (255 : Nat) ≠ 0 := by
  decide +kernel

/-- SnapReturnsTheRegisters: the premises of both clauses, in UNBUILT and in READY;
DiagnosticsChangeNothing. -/
theorem test_witness_diagnostics :
    (∀ s ∈ [State.reset, ready], s.Inv ∧ idle s.arch = true) ∧ after .snap ready ≠ none ∧
    after .status ready ≠ none ∧ after (.combine 1 1 (port 1) (port 1)) ready ≠ none ∧
    after .next ready ≠ none := by decide +kernel

end Sys2Proof.Tests
end

section
/-! Proofs of the statements on scope (spec/00_scope.md): operand widths, determinism, legal instances,
START's operand check. -/

namespace Sys2Proof

/-! ### What the decoder reads fits its ports -/

theorem slice_length {v : BitSeq} {lo w : Nat} (h : lo + w ≤ v.length) : (slice v lo w).length = w := by
  simp only [slice, List.length_take, List.length_drop]
  omega

/-- The taps are the last field of an entry, so CEW bits are enough for all its fields (30_encoding.md R66). -/
theorem decodeEntry_fits {P : Params} {v : BitSeq} (h : v.length = P.cew) :
    (decodeEntry P v).fits P = true := by
  have htaps : (slice v (P.lenw + 2 * P.idxw) P.lmax).length = P.lmax := slice_length (by rw [h, Params.cew])
  simp [Entry.fits, decodeEntry, natOfBits_slice_lt, htaps]

theorem decodeCfg_fits {P : Params} {v : BitSeq} (h : v.length = 3 * P.cew) :
    (decodeCfg P v).fits P = true := by
  have hentry : ∀ lo, lo + P.cew ≤ 3 * P.cew → (decodeEntry P (slice v lo P.cew)).fits P = true :=
    fun lo hlo => decodeEntry_fits (slice_length (h ▸ hlo))
  simp only [Cfg.fits, decodeCfg, Bool.and_eq_true]
  exact ⟨⟨hentry _ (by omega), hentry _ (by omega)⟩, hentry _ (by omega)⟩

/-- The value read from a w-bit port is below `2^w`. -/
theorem natOfBits_bitsOfNat_lt (w v : Nat) : natOfBits (bitsOfNat w v) < 2 ^ w := by
  simpa using natOfBits_lt (bitsOfNat w v)

/-- The four X-format ports carry operands of their widths. -/
theorem fitsX_ports (P : Params) (p : Ports) :
    fitsX P (natOfBits (bitsOfNat P.clw p.tlenIn)) (natOfBits (bitsOfNat P.clw p.klenIn))
      (bitsOfNat P.cmax p.textIn) (bitsOfNat P.cmax p.ksIn) = true := by
  simp [fitsX, natOfBits_bitsOfNat_lt]

/-- Settles O4, by cases on the opcode: only the formats C, K, N and X have operands to check. -/
theorem decodedCommandsFitTheirPorts : Obligations.DecodedCommandsFitTheirPorts := by
  intro P p
  unfold decode
  split
  case h_2 => -- INIT
    exact decodeCfg_fits (bitsOfNat_length _ _)
  case h_3 => -- START
    simp [Instr.wf]
  case h_5 => -- NEXTN
    exact decide_eq_true (natOfBits_bitsOfNat_lt _ _)
  case h_6 => -- COMBINE
    exact fitsX_ports P p
  case h_7 => -- ENCRYPT
    exact fitsX_ports P p
  case h_8 => -- DECRYPT
    exact fitsX_ports P p
  all_goals rfl

end Sys2Proof

namespace Sys2Proof.Machine

open Sys2Proof

/-! ### What stands at the ports does not matter to a command -/

section Inputs

variable (s : State) (ins : List Input)

theorem replyIfDone_withInputs :
    replyIfDone { s with inputs := ins } = { replyIfDone s with inputs := ins } := by
  obtain ⟨P, S, f, r, old⟩ := s
  unfold replyIfDone
  split
  · rfl
  · cases f <;> rfl

theorem advance_withInputs : advance { s with inputs := ins } = { advance s with inputs := ins } := by
  rw [advance, advance, ← replyIfDone_withInputs]

theorem runTicks_withInputs (n : Nat) :
    runTicks n { s with inputs := ins } = { runTicks n s with inputs := ins } := by
  induction n generalizing s with
  | zero => rfl
  | succ n ih =>
    simp only [runTicks]
    split
    · rw [advance_withInputs, ih]
    · rfl

theorem finish_withInputs : finish { s with inputs := ins } = { finish s with inputs := ins } :=
  runTicks_withInputs s ins _

end Inputs

section SameCore

variable {s s' : State} (hp : s'.params = s.params) (ha : s'.arch = s.arch)
include hp ha

/-- A response overwrites the old one and what was owed, so only the inputs are left to differ. -/
theorem respond_of_sameCore (st : Status) (pl : Payload) :
    respond st pl s' = { respond st pl s with inputs := s'.inputs } := by
  simp only [respond, hp, ha]

omit ha in
theorem openCommand_of_sameParams (r : Reply) (S : CoreState) :
    openCommand r S s' = { openCommand r S s with inputs := s'.inputs } := by
  rw [openCommand, openCommand, ← replyIfDone_withInputs, hp]

theorem combineX_of_sameCore (tlen klen : Nat) (text ks : BitSeq) :
    combineX tlen klen text ks s' = { combineX tlen klen text ks s with inputs := s'.inputs } := by
  unfold combineX
  split <;> exact respond_of_sameCore hp ha _ _

/-- Accepting a command reads the parameters and the state of the core alone. -/
theorem accept_of_sameCore (i : Instr) : accept i s' = { accept i s with inputs := s'.inputs } := by
  cases i
  case init c =>
    simp only [accept, acceptInit, hp, ha]
    split
    · rfl
    · exact respond_of_sameCore hp ha _ _
  case start key frame =>
    simp only [accept, acceptStart, hp, ha]
    split
    · split
      · exact openCommand_of_sameParams hp _ _
      · exact respond_of_sameCore hp ha _ _
    · exact respond_of_sameCore hp ha _ _
  case next =>
    simp only [accept, acceptNext, ha]
    split
    · exact openCommand_of_sameParams hp _ _
    · exact respond_of_sameCore hp ha _ _
  case nextn n =>
    simp only [accept, acceptNextn, ha]
    split
    · exact openCommand_of_sameParams hp _ _
    · exact respond_of_sameCore hp ha _ _
  case combine => exact combineX_of_sameCore hp ha _ _ _ _
  case encrypt => exact combineX_of_sameCore hp ha _ _ _ _
  case decrypt => exact combineX_of_sameCore hp ha _ _ _ _
  case snap =>
    simp only [accept, acceptSnap, ha]
    exact respond_of_sameCore hp ha _ _
  all_goals exact respond_of_sameCore hp ha _ _

/-- From the same parameters and core state a command leads to the same state, but for the inputs that
follow it (20_memory.md R50). -/
theorem exec_of_sameCore {i : Instr} {t : State} (h : exec i s = .next t) :
    exec i s' = .next { t with inputs := s'.inputs } := by
  rw [exec_eq_finish_accept] at h
  cases h
  rw [exec_eq_finish_accept, accept_of_sameCore hp ha, finish_withInputs]

end SameCore

@[simp] theorem cycle_params (s : State) : (cycle s).params = s.params := by
  obtain ⟨-, h⟩ | ⟨-, -, h⟩ | ⟨p, rest, -, -, -, h⟩ | ⟨-, -, h⟩ := cycle_cases s <;> simp [h]

/-- Settles O42: accepting and ticking read nothing but the parameters and the state of the core. -/
theorem commandsAreFunctionsOfTheCoreState : Obligations.CommandsAreFunctionsOfTheCoreState := by
  refine ⟨cycle_params, fun i s s' t t' _ hp ha h h' => ?_⟩
  rw [exec_of_sameCore hp ha h] at h'
  cases h'
  exact ⟨rfl, rfl⟩

/-! ### Legal instances -/

theorem ok_iff (P : Params) : P.ok = true ↔
    1 ≤ P.lmax ∧ P.keyLen < 2 ^ P.nw ∧ P.frameLen < 2 ^ P.nw ∧ P.warmupN < 2 ^ P.nw ∧
      1 ≤ P.nw ∧ 1 ≤ P.clw := by
  simp only [Params.ok, Bool.and_eq_true, decide_eq_true_eq, and_assoc]

theorem buildInstance_of_ok {P : Params} (h : P.ok = true) : buildInstance P = some (State.resetOf P) :=
  if_pos h

theorem buildInstance_of_not_ok {P : Params} (h : ¬ P.ok = true) : buildInstance P = none := if_neg h

theorem buildInstance_ne_none_iff (P : Params) : buildInstance P ≠ none ↔ P.ok = true := by
  by_cases h : P.ok = true
  · simp [buildInstance_of_ok h, h]
  · simp [buildInstance_of_not_ok h, h]

/-- Settles O7, from the two cases of `buildInstance`. -/
theorem onlyLegalInstancesAreBuilt : Obligations.OnlyLegalInstancesAreBuilt := by
  refine ⟨fun P => ?_, fun P => (buildInstance_ne_none_iff P).trans (ok_iff P),
    buildInstance_of_ok (by decide)⟩
  by_cases h : P.ok = true
  · exact .inl (buildInstance_of_ok h)
  · exact .inr (buildInstance_of_not_ok h)

/-! ### START's operand check -/

theorem wfKeyFrame_eq_false_iff (P : Params) (key frame : BitSeq) :
    wfKeyFrame P key frame = false ↔ key.length ≠ P.keyLen ∨ frame.length ≠ P.frameLen := by
  simp [wfKeyFrame, Classical.or_iff_not_imp_left]

/-- In UNLOADED the lengths of START's operands are checked (60_exceptions.md R181). -/
theorem exec_start_badLength {s : State} {key frame : BitSeq} (hp : s.arch.phase = .unloaded)
    (hw : wfKeyFrame s.params key frame = false) :
    exec (.start key frame) s = .next (raiseError .errConfig s) := by
  simp [exec, execStart, acceptStart, hp, hw]

/-- Outside UNLOADED the phase check comes first, whatever the operands are (60_exceptions.md R187). -/
theorem exec_start_badPhase {s : State} (key frame : BitSeq) (hp : s.arch.phase ≠ .unloaded) :
    exec (.start key frame) s = .next (raiseError .errPhase s) := by
  simp [exec, execStart, acceptStart, hp]

/-- Settles O47, one check of START per clause. -/
theorem startOfWrongLengthIsConfigError : Obligations.StartOfWrongLengthIsConfigError := by
  intro key frame s _ hlen
  exact ⟨fun hp => exec_start_badLength hp ((wfKeyFrame_eq_false_iff _ _ _).2 hlen),
    fun hp => exec_start_badPhase key frame hp⟩

end Sys2Proof.Machine
end

section
/-! Proofs of the statements on the state (spec/10_state.md): the reset values, the invariant of R33 and what
it says of reachable states, well-formed configurations, what writes each element, the busy core. -/

namespace Sys2Proof.Machine

open Sys2Proof

/-! ### The reset state -/

theorem tapSet_zeroEntry (P : Params) : tapSet (zeroEntry P) = [] := by
  simp [tapSet, zeroEntry]

theorem coreResetOf_inv (P : Params) : (CoreState.resetOf P).Inv P := by
  refine ⟨?_, ⟨rfl, rfl, rfl⟩, ?_, ?_, ?_, ?_⟩
  · simp [CoreState.resetOf, CoreState.NoLength, zeroEntry]
  · exact fun h => absurd rfl h
  · exact fun h => nomatch h
  · simp [CoreState.CountsFit, CoreState.resetOf]
  · simp [CoreState.WidthsFit, CoreState.resetOf, zeroEntry]

theorem resetOf_inv {P : Params} (h : P.ok = true) : (State.resetOf P).Inv :=
  ⟨h, coreResetOf_inv P, rfl, fun _ hf => nomatch hf⟩

/-- Settles O8: the entries are `zeroEntry`, whose mask of zeros has no member. -/
theorem resetValues : Obligations.ResetValues := by
  refine ⟨fun P e he => ?_, fun P => ⟨rfl, rfl, rfl, rfl, rfl, rfl, rfl, rfl⟩, rfl, rfl⟩
  obtain rfl : e = zeroEntry P := by simpa [State.resetOf, CoreState.resetOf] using he
  exact ⟨rfl, rfl, rfl, tapSet_zeroEntry P⟩

/-- Settles O10: State.reset has the default parameters, which are legal. -/
theorem resetMeetsTheInvariant : Obligations.ResetMeetsTheInvariant :=
  ⟨resetOf_inv (by decide), fun _ => resetOf_inv⟩

/-! ### The invariant does not look at the ports -/

section Ports

variable {s : State} (hi : s.Inv)
include hi

theorem takeInput_inv : (takeInput s).Inv := hi

theorem passEdge_inv : (passEdge s).Inv := hi

theorem hardReset_inv : (hardReset s).Inv := resetOf_inv hi.1

end Ports

/-! ### Accepting a command keeps the invariant -/

theorem raiseError_inv {s : State} (st : Status) (hi : s.Inv) (hb : busy s.arch = false) : (raiseError st s).Inv :=
  respond_inv st .none s hi.1 hi.2.1 hb

/-- A count of keystream bits that fits its counter may be asked for in READY and RUNNING. -/
theorem withNrem_inv {P : Params} {S : CoreState} {n : Nat} (hi : S.Inv P)
    (hp : S.phase = .ready ∨ S.phase = .running) (hn : n < 2 ^ P.nw) : { S with nrem := n }.Inv P := by
  obtain ⟨hunbuilt, hlen, hwf, hzero, ⟨hkey, hframe, hwarm, hcnt, -, -⟩, hwidths⟩ := hi
  exact ⟨hunbuilt, hlen, hwf, hzero, ⟨hkey, hframe, hwarm, hcnt, fun _ => hp, hn⟩, hwidths⟩

/-- The acceptance of NEXT and NEXTN outside their error. -/
theorem openKeystream_inv {s : State} {r : Reply} {n : Nat} (hi : s.Inv)
    (hp : s.arch.phase = .ready ∨ s.arch.phase = .running) (hr : r ≠ .plain) (hn : n < 2 ^ s.params.nw) :
    (openCommand r { s.arch with nrem := n } s).Inv := by
  refine openCommand_inv r _ s hi.1 (withNrem_inv hi.2.1 hp hn) fun _ => ?_
  obtain hp | hp := hp <;> simp [Reply.matchesPhase, hr, hp]

theorem acceptInit_inv {s : State} {c : Cfg} (hw : (Instr.init c).wf s.params = true) (hi : s.Inv)
    (hb : busy s.arch = false) : (acceptInit c s).Inv := by
  unfold acceptInit
  split
  case isTrue hc =>
    obtain ⟨hinv, hidle⟩ := effect_inv _ _ _ _ _ _ hw hi.2.1 hb (.construct c hc)
    exact respond_inv _ _ { s with arch := _ } hi.1 hinv hidle
  case isFalse => exact raiseError_inv _ hi hb

/-- START's loading begins at count 0, and SETTLE skips what has length 0 (42_cipher_fsm.md R126). -/
theorem openLoading_inv {s : State} {key frame : BitSeq} (hi : s.Inv) (hb : busy s.arch = false)
    (hp : s.arch.phase = .unloaded) (hk : key.length = s.params.keyLen)
    (hf : frame.length = s.params.frameLen) :
    (openCommand .plain
      (settle s.params { s.arch with keyL := key, frameL := frame, phase := .loadKey, cnt := 0 }) s).Inv := by
  obtain ⟨hunbuilt, hlen, hwf, -, -, -, -, htaps⟩ := hi.2.1
  have hnu : s.arch.phase ≠ .unbuilt := by simp [hp]
  obtain ⟨hinv, hload⟩ := settle_inv s.params
    { s.arch with keyL := key, frameL := frame, phase := .loadKey, cnt := 0 }
    (.inl rfl) (fun h => hnu (hunbuilt.2 h)) hlen (hwf hnu) (by simp [CoreState.CountAtMost])
    ((busy_eq_false_iff _).1 hb).2 ⟨hk, hf, htaps⟩
  exact openCommand_inv .plain _ s hi.1 hinv fun hbusy =>
    iff_of_true rfl (hload.resolve_right (by simp [hbusy]))

theorem acceptStart_inv {s : State} {key frame : BitSeq} (hi : s.Inv) (hb : busy s.arch = false) :
    (acceptStart key frame s).Inv := by
  unfold acceptStart
  split
  case isTrue hp =>
    split
    case isTrue hw =>
      obtain ⟨hk, hf⟩ : key.length = s.params.keyLen ∧ frame.length = s.params.frameLen := by
        simpa [wfKeyFrame] using hw
      exact openLoading_inv hi hb hp hk hf
    case isFalse => exact raiseError_inv _ hi hb
  case isFalse => exact raiseError_inv _ hi hb

theorem acceptNext_inv {s : State} (hi : s.Inv) (hb : busy s.arch = false) : (acceptNext s).Inv := by
  unfold acceptNext
  split
  case isTrue hp =>
    obtain ⟨-, -, -, -, hnw, -⟩ := (ok_iff _).1 hi.1
    exact openKeystream_inv hi ((producesKeystream_iff _).1 hp) (by decide) (Nat.one_lt_two_pow (by omega))
  case isFalse => exact raiseError_inv _ hi hb

theorem acceptNextn_inv {s : State} {n : Nat} (hn : n < 2 ^ s.params.nw) (hi : s.Inv)
    (hb : busy s.arch = false) : (acceptNextn n s).Inv := by
  unfold acceptNextn
  split
  case isTrue hp => exact openKeystream_inv hi ((producesKeystream_iff _).1 hp) (by decide) hn
  case isFalse => exact raiseError_inv _ hi hb

theorem combineX_inv {s : State} (tlen klen : Nat) (text ks : BitSeq) (hi : s.Inv) (hb : busy s.arch = false) :
    (combineX tlen klen text ks s).Inv := by
  obtain ⟨st, pl, -, h⟩ := combineX_effect s tlen klen text ks
  exact h ▸ respond_inv st pl s hi.1 hi.2.1 hb

theorem accept_inv {s : State} {i : Instr} (hw : i.wf s.params = true) (hi : s.Inv) (hb : busy s.arch = false) :
    (accept i s).Inv := by
  cases i
  case init c => exact acceptInit_inv hw hi hb
  case start key frame => exact acceptStart_inv hi hb
  case next => exact acceptNext_inv hi hb
  case nextn n => exact acceptNextn_inv (of_decide_eq_true hw) hi hb
  case combine => exact combineX_inv _ _ _ _ hi hb
  case encrypt => exact combineX_inv _ _ _ _ hi hb
  case decrypt => exact combineX_inv _ _ _ _ hi hb
  all_goals exact respond_inv _ _ s hi.1 hi.2.1 hb

/-- A whole command keeps the invariant and leaves the core idle, answered in the phase it is then in. -/
theorem exec_inv {s t : State} {i : Instr} (hw : i.wf s.params = true) (hi : s.Inv) (hb : busy s.arch = false)
    (h : exec i s = .next t) :
    t.Inv ∧ busy t.arch = false ∧ ∃ st pl, t.rsp = some ⟨st, t.arch.phase, pl⟩ := by
  obtain ⟨st, pl, S, heff, hexec⟩ := exec_effect s i hb
  obtain ⟨hinv, hidle⟩ := effect_inv _ _ _ _ _ _ hw hi.2.1 hb heff
  rw [hexec] at h
  cases h
  exact ⟨respond_inv st pl _ hi.1 hinv hidle, hidle, st, pl, rfl⟩

/-! ### Every step keeps the invariant -/

/-- Settles O11, by what a step can be; the command it runs fits its ports. -/
theorem stepKeepsTheInvariant : Obligations.StepKeepsTheInvariant := by
  intro s t hi h
  obtain ⟨-, hs⟩ | ⟨-, hb, hs⟩ | ⟨p, rest, -, hb, -, hs⟩ | ⟨-, -, hs⟩ := step_cases s <;> rw [hs] at h
  · cases h
    exact hardReset_inv hi
  · cases h
    exact advance_inv _ (passEdge_inv hi) hb
  · exact (exec_inv (decodedCommandsFitTheirPorts _ p) (takeInput_inv hi) hb h).1
  · cases h
    exact passEdge_inv hi

/-- Settles O12, by what a micro-step can be. -/
theorem cycleKeepsTheInvariant : Obligations.CycleKeepsTheInvariant := by
  intro s hi
  obtain ⟨-, hs⟩ | ⟨-, hb, hs⟩ | ⟨p, rest, -, hb, -, hs⟩ | ⟨-, -, hs⟩ := cycle_cases s <;> rw [hs]
  · exact hardReset_inv hi
  · exact advance_inv _ (passEdge_inv hi) hb
  · exact accept_inv (decodedCommandsFitTheirPorts _ p) (takeInput_inv hi) hb
  · exact passEdge_inv hi

/-! ### Well-formed configurations -/

theorem bitAt_eq_true_iff (s : BitSeq) (i : Nat) : bitAt s i = true ↔ s[i]? = some true := by
  cases h : s[i]? <;> simp [bitAt, List.getD_eq_getElem?_getD, h]

theorem mem_tapSet (e : Entry) (t : Nat) : t ∈ tapSet e ↔ bitAt e.taps t = true := by
  have hlt : bitAt e.taps t = true → t < e.taps.length := fun h =>
    (List.getElem?_eq_some_iff.1 ((bitAt_eq_true_iff _ _).1 h)).1
  simpa [tapSet] using hlt

/-- No mask bit at or above LEN is set exactly when every tap is below LEN (10_state.md R25(d)). -/
theorem taps_drop_all_iff (e : Entry) :
    (e.taps.drop e.len).all (!·) = true ↔ ∀ t ∈ tapSet e, t < e.len := by
  have hall : (e.taps.drop e.len).all (!·) = true ↔ true ∉ e.taps.drop e.len := by simp
  rw [hall, List.mem_iff_getElem?]
  simp only [mem_tapSet, bitAt_eq_true_iff, List.getElem?_drop]
  constructor
  · intro h t ht
    by_contra hge
    exact h ⟨t - e.len, by rwa [Nat.add_sub_cancel' (Nat.le_of_not_lt hge)]⟩
  · rintro h ⟨k, hk⟩
    exact absurd (h _ hk) (by omega)

theorem wfEntry_iff (P : Params) (e : Entry) : wfEntry P e = true ↔
    (1 ≤ e.len ∧ e.len ≤ P.lmax) ∧ e.clk < e.len ∧ e.out < e.len ∧ ∀ t ∈ tapSet e, t < e.len := by
  simp only [wfEntry, Bool.and_eq_true, decide_eq_true_eq, taps_drop_all_iff, and_assoc]

theorem wfCfg_iff (P : Params) (c : Cfg) : wfCfg P c = true ↔
    wfEntry P c.e1 = true ∧ wfEntry P c.e2 = true ∧ wfEntry P c.e3 = true := by
  simp only [wfCfg, Bool.and_eq_true, and_assoc]

/-- Settles O14; only the clause on the tap mask needs an argument. -/
theorem wellFormednessIsR25 : Obligations.WellFormednessIsR25 := ⟨wfEntry_iff, wfCfg_iff⟩

/-! ### Reachable states -/

theorem cycles_inv (n : Nat) {s : State} (hi : s.Inv) : (cycles n s).Inv := by
  induction n generalizing s with
  | zero => exact hi
  | succ n ih => exact ih (cycleKeepsTheInvariant s hi)

theorem cycles_params (n : Nat) (s : State) : (cycles n s).params = s.params := by
  induction n generalizing s with
  | zero => rfl
  | succ n ih => rw [cycles, ih, cycle_params]

/-- The core state of every micro-step of every run from reset meets the invariant. -/
theorem reachable_inv {P : Params} (h : P.ok = true) (ins : List Input) (n : Nat) :
    (cycles n { State.resetOf P with inputs := ins }).arch.Inv P := by
  have hreset : State.Inv { State.resetOf P with inputs := ins } := resetOf_inv h
  have hinv := (cycles_inv n hreset).2.1
  rwa [cycles_params] at hinv

/-! ### A register's storage -/

theorem storage_length {P : Params} {r : BitSeq} (h : r.length ≤ P.lmax) : (storage P r).length = P.lmax := by
  rw [storage, List.length_append, zeros_length]
  omega

theorem bitAt_storage_of_length_le (P : Params) {r : BitSeq} {i : Nat} (h : r.length ≤ i) :
    bitAt (storage P r) i = false := by
  rw [bitAt, storage, List.getD_append_right _ _ _ _ h]
  exact bitAt_zeros _ _

section CoreInv

variable {P : Params} {S : CoreState} (hi : S.Inv P)
include hi

/-- Every LEN is at most LMAX, in UNBUILT because it is 0. -/
theorem lens_le_lmax : S.cfg.e1.len ≤ P.lmax ∧ S.cfg.e2.len ≤ P.lmax ∧ S.cfg.e3.len ≤ P.lmax := by
  obtain ⟨hunbuilt, -, hwf, -⟩ := hi
  by_cases hp : S.phase = .unbuilt
  · obtain ⟨h1, h2, h3⟩ := hunbuilt.1 hp
    simp [h1, h2, h3]
  · have hle : ∀ e, wfEntry P e = true → e.len ≤ P.lmax := fun e he => ((wfEntry_iff P e).1 he).1.2
    obtain ⟨h1, h2, h3⟩ := (wfCfg_iff _ _).1 (hwf hp)
    exact ⟨hle _ h1, hle _ h2, hle _ h3⟩

theorem regs_of_unbuilt (hp : S.phase = .unbuilt) : S.regs = ⟨[], [], []⟩ := by
  obtain ⟨hunbuilt, ⟨l1, l2, l3⟩, -⟩ := hi
  obtain ⟨h1, h2, h3⟩ := hunbuilt.1 hp
  have e1 := List.eq_nil_of_length_eq_zero (l1.trans h1)
  have e2 := List.eq_nil_of_length_eq_zero (l2.trans h2)
  have e3 := List.eq_nil_of_length_eq_zero (l3.trans h3)
  calc S.regs = ⟨S.regs.r1, S.regs.r2, S.regs.r3⟩ := rfl
    _ = ⟨[], [], []⟩ := by rw [e1, e2, e3]

theorem regs_zero_of_unloaded (hp : S.phase = .unloaded) (i : Nat) :
    bitAt S.regs.r1 i = false ∧ bitAt S.regs.r2 i = false ∧ bitAt S.regs.r3 i = false := by
  obtain ⟨-, -, -, hzero, -⟩ := hi
  simp [hzero hp, construct]

/-- Keystream bits are owed in READY and RUNNING only, where nothing is counted (10_state.md R33(d)). -/
theorem cnt_or_nrem_zero : S.cnt = 0 ∨ S.nrem = 0 := by
  obtain ⟨-, -, -, -, ⟨-, -, -, hcnt, hnrem, -⟩, -⟩ := hi
  by_cases hn : S.nrem = 0
  · exact .inr hn
  · exact .inl (hcnt (.inr (.inr (hnrem hn))))

theorem cnt_zero_of_not_loading (hk : S.phase ≠ .loadKey) (hf : S.phase ≠ .loadFrame) (hw : S.phase ≠ .warmup) :
    S.cnt = 0 := by
  obtain ⟨-, -, -, -, ⟨-, -, -, hcnt, -⟩, -⟩ := hi
  refine hcnt ?_
  cases hp : S.phase <;> simp_all

theorem storage_fits : ∀ r ∈ [(S.regs.r1, S.cfg.e1.len), (S.regs.r2, S.cfg.e2.len), (S.regs.r3, S.cfg.e3.len)],
    (storage P r.1).length = P.lmax ∧ ∀ i, r.2 ≤ i → bitAt (storage P r.1) i = false := by
  have key : ∀ (r : BitSeq) (len : Nat), r.length = len → len ≤ P.lmax →
      (storage P r).length = P.lmax ∧ ∀ i, len ≤ i → bitAt (storage P r) i = false := by
    rintro r _ rfl hle
    exact ⟨storage_length hle, fun i => bitAt_storage_of_length_le P⟩
  obtain ⟨m1, m2, m3⟩ := lens_le_lmax hi
  obtain ⟨-, ⟨l1, l2, l3⟩, -⟩ := hi
  simpa using ⟨key _ _ l1 m1, key _ _ l2 m2, key _ _ l3 m3⟩

end CoreInv

/-- Settles O13: each clause from the invariant, which every run from reset keeps. -/
theorem reachableStatesSatisfyR33 : Obligations.ReachableStatesSatisfyR33 := by
  intro P ins n hP
  have hi := reachable_inv hP ins n
  have ⟨hunbuilt, hlen, hwf, _, ⟨hkey, hframe, hwarm, _, hnrem, hbound⟩, _⟩ := hi
  exact ⟨hunbuilt, regs_of_unbuilt hi, fun hp => ⟨hwf hp, hlen⟩, regs_zero_of_unloaded hi,
    fun hp => (hkey hp).le, fun hp => (hframe hp).le, fun hp => (hwarm hp).le,
    cnt_zero_of_not_loading hi, hnrem, hbound, cnt_or_nrem_zero hi, storage_fits hi⟩

/-! ### What writes each element of the state -/

theorem accept_init_of_wf {s : State} {c : Cfg} (h : wfCfg s.params c = true) :
    (accept (.init c) s).arch =
      { s.arch with cfg := c, regs := construct c, phase := .unloaded, cnt := 0, nrem := 0 } := by
  simp [accept, acceptInit, h]

/-- What a micro-step that is no hardware reset can write to the state of the core: a tick, a successful
INIT, a START in UNLOADED, or nrem alone. -/
theorem cycle_arch_cases (s : State) :
    nextEvent s = .reset ∨
    (nextEvent s = .tick ∧ (cycle s).arch = (tick s.params s.arch).1) ∨
    (∃ p c, nextEvent s = .command p ∧ decode s.params p = .init c ∧ wfCfg s.params c = true ∧
      (cycle s).arch =
        { s.arch with cfg := c, regs := construct c, phase := .unloaded, cnt := 0, nrem := 0 }) ∨
    (∃ p key frame, nextEvent s = .command p ∧ decode s.params p = .start key frame ∧
      s.arch.phase = .unloaded ∧
      (cycle s).arch =
        settle s.params { s.arch with keyL := key, frameL := frame, phase := .loadKey, cnt := 0 }) ∨
    ∃ n, (cycle s).arch = { s.arch with nrem := n } := by
  obtain ⟨he, -⟩ | ⟨he, -, hs⟩ | ⟨p, rest, he, -, -, hs⟩ | ⟨-, -, hs⟩ := cycle_cases s
  · exact .inl he
  · exact .inr (.inl ⟨he, by rw [hs, advance_arch]; rfl⟩)
  · rw [hs]
    obtain ⟨c, hd, hc⟩ | ⟨key, frame, hd, hp, ha⟩ | ⟨n, ha⟩ := accept_frame (decode s.params p) (takeInput s)
    · exact .inr (.inr (.inl ⟨p, c, he, hd, hc, by rw [hd, accept_init_of_wf hc]; rfl⟩))
    · exact .inr (.inr (.inr (.inl ⟨p, key, frame, he, hd, hp, ha⟩)))
    · exact .inr (.inr (.inr (.inr ⟨n, ha⟩)))
  · exact .inr (.inr (.inr (.inr ⟨s.arch.nrem, by rw [hs]; rfl⟩)))

/-- Settles O39: a tick writes no cfg, and INIT is the only acceptance that does. -/
theorem onlyInitWritesTheConfiguration : Obligations.OnlyInitWritesTheConfiguration := by
  intro s h
  obtain he | ⟨-, ha⟩ | ⟨p, c, he, hd, hc, ha⟩ | ⟨p, key, frame, -, -, -, ha⟩ | ⟨n, ha⟩ := cycle_arch_cases s
  · exact .inl he
  · exact absurd (by rw [ha, tick_cfg]) h
  · exact .inr ⟨p, c, he, hd, hc, by rw [ha], by rw [ha], by rw [ha]⟩
  · exact absurd (by rw [ha, settle_cfg]) h
  · exact absurd (by rw [ha]) h

/-- Settles O40: a tick writes no latch, and START in UNLOADED is the only acceptance that does. -/
theorem onlyStartWritesTheLatches : Obligations.OnlyStartWritesTheLatches := by
  intro s h
  obtain he | ⟨-, ha⟩ | ⟨p, c, -, -, -, ha⟩ | ⟨p, key, frame, he, hd, hp, ha⟩ | ⟨n, ha⟩ := cycle_arch_cases s
  · exact .inl he
  · simp [ha] at h
  · simp [ha] at h
  · exact .inr ⟨p, key, frame, he, hd, hp, by rw [ha, settle_keyL], by rw [ha, settle_frameL]⟩
  · simp [ha] at h

/-- Settles O41: of the acceptances only INIT writes the registers; START leaves that to its ticks. -/
theorem onlyInitAndTicksWriteTheRegisters : Obligations.OnlyInitAndTicksWriteTheRegisters := by
  intro s h
  obtain he | ⟨he, -⟩ | ⟨p, c, he, hd, hc, -⟩ | ⟨p, key, frame, -, -, -, ha⟩ | ⟨n, ha⟩ := cycle_arch_cases s
  · exact .inl he
  · exact .inr (.inl he)
  · exact .inr (.inr ⟨p, c, he, hd, hc⟩)
  · exact absurd (by rw [ha, settle_regs]) h
  · exact absurd (by rw [ha]) h

/-! ### Responses -/

/-- A tick answers only when it leaves the core idle (30_encoding.md R71). -/
theorem advance_rsp {s : State} {r : Response} (h : (advance s).rsp = some r) :
    busy (advance s).arch = false ∧ r.phase = (advance s).arch.phase := by
  rw [advance] at h ⊢
  obtain ⟨hs, -⟩ | ⟨f, -, hb, hs⟩ := replyIfDone_cases
    { s with
      arch     := (tick s.params s.arch).1
      rsp      := none
      inFlight := s.inFlight.map (·.push (tick s.params s.arch).2) }
  · rw [hs] at h
    cases h
  · rw [hs] at h ⊢
    cases h
    exact ⟨hb, rfl⟩

/-- A step that answers leaves the core idle, in the phase it reports (30_encoding.md R71, R72). -/
theorem step_rsp {s t : State} {r : Response} (hi : s.Inv) (h : step s = .next t) (hr : t.rsp = some r) :
    busy t.arch = false ∧ r.phase = t.arch.phase := by
  obtain ⟨-, hs⟩ | ⟨-, -, hs⟩ | ⟨p, rest, -, hb, -, hs⟩ | ⟨-, -, hs⟩ := step_cases s <;> rw [hs] at h
  · cases h
    cases hr
  · cases h
    exact advance_rsp hr
  · obtain ⟨-, hidle, st, pl, hrsp⟩ := exec_inv (decodedCommandsFitTheirPorts _ p) (takeInput_inv hi) hb h
    cases hrsp.symm.trans hr
    exact ⟨hidle, rfl⟩
  · cases h
    cases hr

/-- Settles O43: a response reports the phase of an idle core, and no idle core is in a busy phase. -/
theorem responsesShowOnlyIdlePhases : Obligations.ResponsesShowOnlyIdlePhases := by
  intro s t r hi h hr
  obtain ⟨hidle, hphase⟩ := step_rsp hi h hr
  rw [hphase]
  exact ((busy_eq_false_iff _).1 hidle).1

/-! ### The busy core -/

section Busy

variable {s : State} {p : Ports} {rest : List Input} (hb : busy s.arch = true)
  (hin : s.inputs = .command p :: rest)
include hin

theorem passEdge_command : passEdge s = { s with rsp := none } := by
  simp [passEdge, hin]

include hb

theorem nextEvent_busy_command : nextEvent s = .tick := by
  simp [nextEvent, hin, hb]

/-- A busy core ticks and leaves the command on the ports (30_encoding.md R71). -/
theorem cycle_busy_command : cycle s = advance { s with rsp := none } := by
  rw [cycle, nextEvent_busy_command hb hin, passEdge_command hin]

theorem step_busy_command : step s = .next (cycle s) := by
  rw [step, cycle, nextEvent_busy_command hb hin]

end Busy

/-- Settles O33: the tick does not read the ports. -/
theorem busyCoreSamplesNoCommand : Obligations.BusyCoreSamplesNoCommand := by
  intro s p q rest hb hin
  have hcycle := cycle_busy_command hb hin
  refine ⟨by simp [hcycle], ?_, step_busy_command hb hin⟩
  rw [hcycle, cycle_busy_command (s := { s with inputs := .command q :: rest }) hb rfl]
  exact advance_withInputs { s with rsp := none } _

end Sys2Proof.Machine
end

section
/-! Proofs of the statements on the encoding (spec/30_encoding.md): the round trips through ports and bit
streams, the fields of an entry, the ports a command samples, its answer, emission, the pseudo-commands. -/

namespace Sys2Proof

/-! ### Pieces of a sequence -/

/-- Two neighbouring pieces are one piece. -/
theorem slice_append_slice (v : BitSeq) (lo a b : Nat) :
    slice v lo a ++ slice v (lo + a) b = slice v lo (a + b) := by
  rw [slice, slice, slice, List.take_add, List.drop_drop]

/-- A piece that lies inside a sequence, carried on a vector and read back. -/
theorem bitsOfNat_natOfBits_slice {v : BitSeq} {lo w : Nat} (h : lo + w ≤ v.length) :
    bitsOfNat w (natOfBits (slice v lo w)) = slice v lo w :=
  bitsOfNat_natOfBits (slice_length h)

theorem bitAt_slice (v : BitSeq) (lo : Nat) {w i : Nat} (h : i < w) :
    Machine.bitAt (slice v lo w) i = Machine.bitAt v (lo + i) := by
  simp [Machine.bitAt, slice, List.getD_eq_getElem?_getD, h]

/-! ### Entries -/

/-- Writing back what was read restores the bits, since the fields follow each other without a gap
(30_encoding.md R66). -/
theorem encodeEntry_decodeEntry {P : Params} {v : BitSeq} (h : v.length = P.cew) :
    encodeEntry P (decodeEntry P v) = v := by
  have hlen : v.length = P.lenw + 2 * P.idxw + P.lmax := h
  calc encodeEntry P (decodeEntry P v)
      = slice v 0 P.lenw ++ slice v P.lenw P.idxw ++ slice v (P.lenw + P.idxw) P.idxw ++
          slice v (P.lenw + 2 * P.idxw) P.lmax := by
        rw [encodeEntry, decodeEntry, bitsOfNat_natOfBits_slice (by omega),
          bitsOfNat_natOfBits_slice (by omega), bitsOfNat_natOfBits_slice (by omega)]
    _ = slice v 0 (P.lenw + P.idxw + P.idxw + P.lmax) := by
        simp only [← slice_append_slice, Nat.zero_add, two_mul, Nat.add_assoc, List.append_assoc]
    _ = v := slice_full (by omega)

/-- Settles O5: the fields are pieces of the entry's bits, and the pieces cover them. -/
theorem entryLayout : Obligations.EntryLayout := fun _ _ h =>
  ⟨rfl, rfl, rfl, fun _ hi => bitAt_slice _ _ hi, decodeEntry_fits h, encodeEntry_decodeEntry h⟩

/-! ### Commands on the ports -/

theorem portsX_encodeX {P : Params} {tlen klen : Nat} {text ks : BitSeq} (op : BitVec 4)
    (mk : Nat → Nat → BitSeq → BitSeq → Instr) (h : fitsX P tlen klen text ks = true) :
    portsX P (encodeX op tlen klen text ks) mk = mk tlen klen text ks := by
  simp only [fitsX, Bool.and_eq_true, decide_eq_true_eq] at h
  obtain ⟨⟨⟨htlen, hklen⟩, htext⟩, hks⟩ := h
  simp only [portsX, encodeX, natOfBits_bitsOfNat htlen, natOfBits_bitsOfNat hklen,
    bitsOfNat_natOfBits htext, bitsOfNat_natOfBits hks]

/-- Settles O2, by cases on the command: the formats C, K, N and X read their ports back, the other commands
have their opcode only. -/
theorem decodeOfEncodeIsTheCommand : Obligations.DecodeOfEncodeIsTheCommand := by
  intro P i hw
  cases i
  case init c =>
    change Instr.init (decodeCfg P (bitsOfNat (3 * P.cew) (natOfBits (encodeCfg P c)))) = _
    rw [bitsOfNat_natOfBits (encodeCfg_length P c hw), decodeCfg_encodeCfg P c hw]
  case start key frame =>
    obtain ⟨hk, hf⟩ : key.length = P.keyLen ∧ frame.length = P.frameLen := by simpa [Instr.wf] using hw
    change Instr.start (bitsOfNat P.keyLen (natOfBits key)) (bitsOfNat P.frameLen (natOfBits frame)) = _
    rw [bitsOfNat_natOfBits hk, bitsOfNat_natOfBits hf]
  case nextn n =>
    exact congrArg Instr.nextn (natOfBits_bitsOfNat (of_decide_eq_true hw))
  case combine => exact portsX_encodeX _ .combine hw
  case encrypt => exact portsX_encodeX _ .encrypt hw
  case decrypt => exact portsX_encodeX _ .decrypt hw
  all_goals rfl

/-! ### What the decoder reads of a presentation -/

theorem operandBits_length (P : Params) (p : Ports) :
    (p.operandBits P).length = operandWidth P (opcodeFormat p.cmdOp) := by
  unfold Ports.operandBits
  cases opcodeFormat p.cmdOp
  case X => simp [operandWidth]; omega
  all_goals simp [operandWidth]

/-- Equal operand bits of the X format are equal on each of its four ports. -/
theorem portsX_of_operandBits_eq {P : Params} {p q : Ports} (hf : opcodeFormat p.cmdOp = .X)
    (hop : p.cmdOp = q.cmdOp) (hbits : p.operandBits P = q.operandBits P)
    (mk : Nat → Nat → BitSeq → BitSeq → Instr) : portsX P p mk = portsX P q mk := by
  simp only [Ports.operandBits, ← hop, hf] at hbits
  obtain ⟨hrest, hks⟩ := List.append_inj' hbits (by simp)
  obtain ⟨hlens, htext⟩ := List.append_inj' hrest (by simp)
  obtain ⟨htlen, hklen⟩ := List.append_inj' hlens (by simp)
  rw [portsX, portsX, htlen, hklen, htext, hks]

/-- The decoder reads the opcode and the operand bits of its format, and nothing else
(30_encoding.md R61). -/
theorem decode_of_operandBits_eq {P : Params} {p q : Ports} (hop : p.cmdOp = q.cmdOp)
    (hbits : p.operandBits P = q.operandBits P) : decode P p = decode P q := by
  unfold decode
  rw [← hop]
  split
  case h_2 h => -- INIT
    have hf : opcodeFormat p.cmdOp = .C := by simp [opcodeFormat, h]
    simp only [Ports.operandBits, ← hop, hf] at hbits
    rw [hbits]
  case h_3 h => -- START
    have hf : opcodeFormat p.cmdOp = .K := by simp [opcodeFormat, h]
    simp only [Ports.operandBits, ← hop, hf] at hbits
    obtain ⟨hk, hfr⟩ := List.append_inj hbits (by simp)
    rw [hk, hfr]
  case h_5 h => -- NEXTN
    have hf : opcodeFormat p.cmdOp = .N := by simp [opcodeFormat, h]
    simp only [Ports.operandBits, ← hop, hf] at hbits
    rw [hbits]
  case h_6 h => -- COMBINE
    exact portsX_of_operandBits_eq (by simp [opcodeFormat, h]) hop hbits _
  case h_7 h => -- ENCRYPT
    exact portsX_of_operandBits_eq (by simp [opcodeFormat, h]) hop hbits _
  case h_8 h => -- DECRYPT
    exact portsX_of_operandBits_eq (by simp [opcodeFormat, h]) hop hbits _
  all_goals rfl

/-! ### Commands in a bit stream -/

theorem toBits_length (P : Params) (p : Ports) : (p.toBits P).length = commandLength P p.cmdOp := by
  rw [Ports.toBits, List.length_append, bitsOfNat_length, operandBits_length, commandLength]

theorem ofBits_cmdOp (P : Params) (v : BitSeq) :
    (Ports.ofBits P v).cmdOp = BitVec.ofNat 4 (natOfBits (slice v 0 4)) := by
  rw [Ports.ofBits]
  cases opcodeFormat (BitVec.ofNat 4 (natOfBits (slice v 0 4))) <;> rfl

/-- The operand bits of a presentation that was read are the bits after its opcode (log entry 4). -/
theorem operandBits_ofBits {P : Params} {v : BitSeq} {op : BitVec 4}
    (hop : BitVec.ofNat 4 (natOfBits (slice v 0 4)) = op) (hlen : commandLength P op ≤ v.length) :
    (Ports.ofBits P v).operandBits P = slice v 4 (operandWidth P (opcodeFormat op)) := by
  have hcmd : (Ports.ofBits P v).cmdOp = op := (ofBits_cmdOp P v).trans hop
  unfold commandLength at hlen
  rw [Ports.operandBits, hcmd, Ports.ofBits, hop]
  cases hf : opcodeFormat op <;> rw [hf, operandWidth] at hlen <;> dsimp only [operandWidth]
  case C => exact bitsOfNat_natOfBits_slice hlen
  case K =>
    rw [bitsOfNat_natOfBits_slice (by omega), bitsOfNat_natOfBits_slice (by omega), slice_append_slice]
  case N => exact bitsOfNat_natOfBits_slice hlen
  case X =>
    rw [bitsOfNat_natOfBits_slice (by omega), bitsOfNat_natOfBits_slice (by omega),
      bitsOfNat_natOfBits_slice (by omega), bitsOfNat_natOfBits_slice (by omega)]
    simp only [← slice_append_slice, two_mul, Nat.add_assoc, List.append_assoc]
  all_goals rfl

/-- A presentation written to a stream and read back has the opcode and the operand bits it had. -/
theorem ofBits_toBits_append (P : Params) (p : Ports) (rest : BitSeq) :
    (Ports.ofBits P (p.toBits P ++ rest)).cmdOp = p.cmdOp ∧
    (Ports.ofBits P (p.toBits P ++ rest)).operandBits P = p.operandBits P := by
  have hopcode : BitVec.ofNat 4 (natOfBits (slice (p.toBits P ++ rest) 0 4)) = p.cmdOp := by
    rw [Ports.toBits, List.append_assoc, slice_append_left _ (by simp),
      natOfBits_bitsOfNat p.cmdOp.isLt, BitVec.ofNat_toNat, BitVec.setWidth_eq]
  have hlen : commandLength P p.cmdOp ≤ (p.toBits P ++ rest).length := by
    rw [List.length_append, toBits_length]
    exact Nat.le_add_right _ _
  refine ⟨(ofBits_cmdOp P _).trans hopcode, ?_⟩
  rw [operandBits_ofBits hopcode hlen, Ports.toBits, List.append_assoc,
    slice_append_right _ (by simp), bitsOfNat_length, Nat.sub_self,
    slice_append_left _ (operandBits_length P p)]

/-- A presentation in a stream is decoded as on the ports, and the bits after it are left
(30_encoding.md R64, R74). -/
theorem decodeBits_toBits_append (P : Params) (p : Ports) (rest : BitSeq) :
    decodeBits P (p.toBits P ++ rest) = .ok (decode P p, rest) := by
  obtain ⟨hop, hbits⟩ := ofBits_toBits_append P p rest
  have hlen : (p.toBits P ++ rest).length = commandLength P p.cmdOp + rest.length := by
    rw [List.length_append, toBits_length]
  have h4 : 4 ≤ commandLength P p.cmdOp := Nat.le_add_right _ _
  have hdrop : (p.toBits P ++ rest).drop (commandLength P p.cmdOp) = rest :=
    List.drop_left' (toBits_length P p)
  simp only [decodeBits, hop]
  rw [if_neg (by omega), if_neg (by omega), decode_of_operandBits_eq hop hbits, hdrop]

/-- Settles O3: the stream is read as the presentation, which O2 decodes. -/
theorem encodedStreamDecodesBack : Obligations.EncodedStreamDecodesBack := by
  intro P i rest hw
  rw [encodeBits, decodeBits_toBits_append, decodeOfEncodeIsTheCommand P i hw]

/-- Settles O1, by evaluation of the decoder on each word. -/
theorem tableWordsDecode : Obligations.TableWordsDecode := by
  unfold Obligations.TableWordsDecode
  decide +kernel

end Sys2Proof

namespace Sys2Proof.Machine

open Sys2Proof

/-! ### Ports that are not sampled -/

/-- Presentations that agree on the ports of their format have the same operand bits. -/
theorem operandBits_of_agree (P : Params) {p q : Ports} (hop : p.cmdOp = q.cmdOp)
    (hC : opcodeFormat p.cmdOp = .C → p.cfgIn = q.cfgIn)
    (hK : opcodeFormat p.cmdOp = .K → p.keyIn = q.keyIn ∧ p.frameIn = q.frameIn)
    (hN : opcodeFormat p.cmdOp = .N → p.nIn = q.nIn)
    (hX : opcodeFormat p.cmdOp = .X →
      p.tlenIn = q.tlenIn ∧ p.klenIn = q.klenIn ∧ p.textIn = q.textIn ∧ p.ksIn = q.ksIn) :
    p.operandBits P = q.operandBits P := by
  unfold Ports.operandBits
  rw [← hop]
  cases hf : opcodeFormat p.cmdOp
  case C => simp [hC hf]
  case K => simp [hK hf]
  case N => simp [hN hf]
  case X => simp [hX hf]
  all_goals rfl

/-- An idle core runs the command on its ports (44_host_commands.md R150). -/
theorem step_idle_command {s : State} (p : Ports) (rest : List Input) (hb : busy s.arch = false) :
    step { s with inputs := .command p :: rest } =
      exec (decode s.params p) { s with inputs := rest, rsp := none } := by
  have he : nextEvent { s with inputs := .command p :: rest } = .command p := by simp [nextEvent, hb]
  rw [step, he]
  rfl

/-- Settles O6: a step reads of the presentation only what the decoder reads. -/
theorem unsampledPortsAreIgnored : Obligations.UnsampledPortsAreIgnored := by
  intro s p q rest hidle hop hC hK hN hX
  have hb : busy s.arch = false := by simpa using hidle
  have hbits : p.operandBits s.params = q.operandBits s.params := operandBits_of_agree _ hop hC hK hN hX
  rw [step_idle_command p rest hb, step_idle_command q rest hb, decode_of_operandBits_eq hop hbits]

/-! ### The answer of a command -/

/-- No command leaves work behind. -/
theorem effect_idle {P : Params} {S S' : CoreState} {i : Instr} {st : Status} {pl : Payload}
    (hb : busy S = false) (h : Effect P S i st pl S') : busy S' = false := by
  have hn : S.nrem = 0 := ((busy_eq_false_iff S).1 hb).2
  cases h with
  | nothing => exact hb
  | construct => rfl
  | keySetup => exact busy_of_ready _ rfl hn
  | oneBit => rfl
  | bits => rfl

theorem not_rst_iff (s : State) : (!rst s) = true ↔ s.inputs.head? ≠ some .reset := by
  simp [← rst_eq_true]

/-- Settles O36: a command ends in `respond`, on a state its effect left idle. -/
theorem everyCommandIsAnswered : Obligations.EveryCommandIsAnswered := by
  intro i s hidle
  have hb : busy s.arch = false := by simpa using hidle
  obtain ⟨st, pl, S, heff, hexec⟩ := exec_effect s i hb
  have hS : idle S = true := by simp [effect_idle hb heff]
  have hrsp : rspValid (respond st pl { s with arch := S }) = !rst s := rfl
  have hready : cmdReady (respond st pl { s with arch := S }) = !rst s := by
    change (idle S && !rst s) = _
    rw [hS, Bool.true_and]
  refine ⟨_, _, hexec, rfl, rfl, hS, rfl, rfl, rfl, ?_, ?_⟩
  · rw [hrsp, not_rst_iff]
  · rw [hready, not_rst_iff]

/-! ### Emission -/

/-- Only the tick of a busy core emits. -/
theorem emission_eq_tick {s : State} (h : emission s ≠ none) :
    busy s.arch = true ∧ emission s = (tick s.params s.arch).2 := by
  obtain ⟨he, -⟩ | ⟨he, hb, -⟩ | ⟨p, rest, he, -⟩ | ⟨he, -⟩ := step_cases s <;> rw [emission, he] at h ⊢
  case inr.inl => exact ⟨hb, rfl⟩
  all_goals exact absurd rfl h

/-- Settles O32: the other phases' ticks emit nothing. -/
theorem onlyReadyAndRunningEmit : Obligations.OnlyReadyAndRunningEmit := by
  intro s h
  obtain ⟨hb, he⟩ := emission_eq_tick h
  have hp : s.arch.phase = .ready ∨ s.arch.phase = .running := by
    by_contra hp
    obtain ⟨hready, hrunning⟩ := not_or.1 hp
    exact h (he.trans (tick_emits_nothing _ _ hready hrunning))
  exact ⟨hb, hp, by rw [he, tick_run _ _ hp]⟩

/-! ### The pseudo-commands -/

/-- INIT with a well-formed configuration (44_host_commands.md R151). -/
theorem exec_init_of_wf {s : State} {c : Cfg} (h : wfCfg s.params c = true) :
    exec (.init c) s = .next (respond .ok .none
      { s with
        arch := { s.arch with cfg := c, regs := construct c, phase := .unloaded, cnt := 0, nrem := 0 } }) := by
  simp [exec, execInit, acceptInit, h]

theorem exec_init_of_not_wf {s : State} {c : Cfg} (h : wfCfg s.params c = false) :
    exec (.init c) s = .next (raiseError .errConfig s) := by
  simp [exec, execInit, acceptInit, h]

/-- START in UNLOADED with operands of the right lengths (44_host_commands.md R152). -/
theorem exec_start_of_unloaded {s : State} {key frame : BitSeq} (hp : s.arch.phase = .unloaded)
    (hn : s.arch.nrem = 0) (hk : key.length = s.params.keyLen) (hf : frame.length = s.params.frameLen) :
    exec (.start key frame) s = .next (respond .ok .none
      { s with
        arch := { s.arch with
          regs := warm s.arch.cfg s.params.warmupN
            (loadSeq s.arch.cfg (loadSeq s.arch.cfg s.arch.regs key) frame)
          phase := .ready, cnt := 0, keyL := key, frameL := frame } }) := by
  have hw : wfKeyFrame s.params key frame = true := by simp [wfKeyFrame, hk, hf]
  rw [exec, execStart, acceptStart, if_pos hp, if_pos hw,
    finish_loading s { s.arch with keyL := key, frameL := frame, phase := .loadKey, cnt := 0 }
      rfl rfl hn hk hf]

/-- The state NEWCIPHER and REKEY lead to: KEYSETUP's registers in READY (42_cipher_fsm.md R120;
`rekey_of_wf`). -/
def keyedState (c : Cfg) (key frame : BitSeq) (s : State) : State :=
  respond .ok .none
    { s with
      arch := { s.arch with
        cfg := c, regs := keySetup s.params c key frame, phase := .ready, cnt := 0, nrem := 0,
        keyL := key, frameL := frame } }

theorem rekey_of_wf {s : State} {c : Cfg} {key frame : BitSeq} (hc : wfCfg s.params c = true)
    (hk : key.length = s.params.keyLen) (hf : frame.length = s.params.frameLen) :
    rekey c key frame s = .next (keyedState c key frame s) := by
  rw [rekey, exec_init_of_wf hc]
  exact exec_start_of_unloaded rfl rfl hk hf

/-- When INIT answers OK, NEWCIPHER goes on as REKEY does (30_encoding.md R75). -/
theorem newCipher_of_wf {s : State} {c : Cfg} (key frame : BitSeq) (hc : wfCfg s.params c = true) :
    newCipher c key frame s = rekey c key frame s := by
  rw [newCipher, rekey, exec_init_of_wf hc]
  rfl

/-- After ConfigError NEWCIPHER presents no START (30_encoding.md R75). -/
theorem newCipher_of_not_wf {s : State} {c : Cfg} (key frame : BitSeq) (hc : wfCfg s.params c = false) :
    newCipher c key frame s = .next (raiseError .errConfig s) := by
  rw [newCipher, exec_init_of_not_wf hc]
  rfl

/-- Settles O59, from the two answers of INIT. -/
theorem newCipherReturnsAReadyCipher : Obligations.NewCipherReturnsAReadyCipher := by
  intro c key frame s _ hk hf
  refine ⟨fun hc => ?_, fun hc => ⟨_, newCipher_of_not_wf key frame hc, rfl, rfl⟩⟩
  have hrekey := rekey_of_wf hc hk hf
  exact ⟨_, (newCipher_of_wf key frame hc).trans hrekey, hrekey, rfl, rfl, rfl, rfl⟩

/-- NEXTN in READY and RUNNING (44_host_commands.md R154), with n = 0 too, where the phase stays. -/
theorem exec_nextn_of_producing {s : State} (n : Nat) (hb : busy s.arch = false)
    (hp : s.arch.phase = .ready ∨ s.arch.phase = .running) :
    exec (.nextn n) s = .next (respond .ok (.keystream (keystream s.arch.cfg n s.arch.regs).2)
      { s with
        arch := { s.arch with
          regs := (keystream s.arch.cfg n s.arch.regs).1
          phase := if n = 0 then s.arch.phase else .running
          nrem := 0 } }) := by
  have hn : s.arch.nrem = 0 := ((busy_eq_false_iff _).1 hb).2
  rw [exec, execNextn, acceptNextn, if_pos ((producesKeystream_iff _).2 hp)]
  rcases Nat.eq_zero_or_pos n with rfl | hpos
  · rw [finish_nextn_zero s hp hn, keystream_zero, if_pos rfl, ← hn]
  · rw [finish_running s .bits n hp hpos, if_neg hpos.ne']
    rfl

/-- COMBINE of a text with a keystream of n bits, padded to the port's width. -/
theorem exec_combine_padded {s : State} {n w : Nat} {text ks : BitSeq} (ht : n ≤ text.length)
    (hk : ks.length = n) :
    exec (.combine n n text (ks ++ zeros w)) s =
      .next (respond .ok (.text (List.zipWith Bool.xor (text.take n) ks)) s) := by
  have hcombine := (combineX_eq n n text (ks ++ zeros w) s ht (by simp [hk])).1 rfl
  rw [List.take_left' hk] at hcombine
  rw [exec, execCombine, hcombine]
  rfl

/-- Settles O60: CRYPT is NEXTN, then COMBINE on the keystream NEXTN gave. -/
theorem cryptXorsTheKeystream : Obligations.CryptXorsTheKeystream := by
  intro n text s hidle hp hn hlen
  have hb : busy s.arch = false := by simpa using hidle
  rw [crypt, exec_nextn_of_producing n hb hp]
  exact ⟨_, _, exec_combine_padded (hlen ▸ hn) (keystream_length _ _ _), rfl, rfl, rfl, rfl⟩

end Sys2Proof.Machine
end

section
/-! Proofs of the statements on the shift register (spec/40_shift_register.md): SHIFT1, SHIFT, linearity. -/

namespace Sys2Proof.Machine

open Sys2Proof

/-! ### SHIFT1 -/

/-- Settles O15, from what SHIFT1 does to each element, with FEEDBACK written over the tap set. -/
theorem shift1MovesAndInjects : Obligations.Shift1MovesAndInjects := by
  intro e r inj hr
  refine ⟨shift1_length e r inj, shift1_moves e r inj, ?_, rfl⟩
  rw [shift1_new_bit e r inj hr, feedback_eq_xor_over_tapSet]

/-! ### SHIFT -/

/-- The loop of SHIFT runs in two parts, the second from the register and return bit of the first. -/
theorem shiftLoop_add (e : Entry) (a b : Nat) (r : BitSeq) (ret : Bit) :
    shiftLoop e (a + b) r ret = shiftLoop e b (shiftLoop e a r ret).1 (shiftLoop e a r ret).2 := by
  induction a generalizing r ret with
  | zero => rw [Nat.zero_add]; rfl
  | succ a ih => rw [Nat.succ_add]; exact ih _ _

/-- SHIFT by n + 1 ends in one more SHIFT1, whose dropped bit it returns. -/
theorem shiftN_succ (e : Entry) (r : BitSeq) (n : Nat) :
    shiftN e r (n + 1) = shift1 e (shiftN e r n).1 false :=
  shiftLoop_add e n 1 r _

/-- A later SHIFT of at least one repetition does not read the return bit of the one before. -/
theorem shiftN_add_succ (e : Entry) (r : BitSeq) (a b : Nat) :
    shiftN e r (a + (b + 1)) = shiftN e (shiftN e r a).1 (b + 1) :=
  shiftLoop_add e a (b + 1) r _

/-- Settles O16: the loop of SHIFT is cut before its last repetition, and after the first a of a + b. -/
theorem shiftRepeatsShift1 : Obligations.ShiftRepeatsShift1 := by
  intro e r
  refine ⟨rfl, fun n => ?_, fun a b => ?_⟩
  · rw [shiftN_succ]
    exact ⟨rfl, rfl⟩
  · cases b with
    | zero => exact ⟨rfl, fun h => absurd h (by decide)⟩
    | succ b =>
      rw [shiftN_add_succ]
      exact ⟨rfl, fun _ => rfl⟩

/-! ### Linearity -/

theorem xor_xor_xor_comm (a b c d : Bit) :
    Bool.xor (Bool.xor a b) (Bool.xor c d) = Bool.xor (Bool.xor a c) (Bool.xor b d) := by
  rw [Bool.xor_assoc, Bool.xor_left_comm b, ← Bool.xor_assoc]

/-- FEEDBACK is linear, whatever the mask. The lengths have to agree: the bitwise XOR has no bits past
the shorter register, where the longer one may have taps. -/
theorem feedback_xor (e : Entry) {r s : BitSeq} (h : r.length = s.length) :
    feedback e (List.zipWith Bool.xor r s) = Bool.xor (feedback e r) (feedback e s) := by
  unfold feedback
  generalize e.taps = mask
  induction mask generalizing r s with
  | nil => rfl
  | cons t mask ih =>
    cases r with
    | nil => obtain rfl := List.length_eq_zero_iff.1 h.symm; rfl
    | cons x r =>
      cases s with
      | nil => cases h
      | cons y s =>
        have hbit : (t && Bool.xor x y) = Bool.xor (t && x) (t && y) := Bool.and_xor_distrib_left t x y
        simp only [List.zipWith_cons_cons, xorAll_cons, ih (Nat.succ.inj h), hbit, xor_xor_xor_comm]

/-- Settles O17: the bit that enters is linear, and appending it and dropping the first element act on
the two registers alike. -/
theorem shift1IsLinear : Obligations.Shift1IsLinear := by
  intro e r s a b h
  have hnew : Bool.xor (feedback e (List.zipWith Bool.xor r s)) (Bool.xor a b) =
      Bool.xor (Bool.xor (feedback e r) a) (Bool.xor (feedback e s) b) := by
    rw [feedback_xor e h, xor_xor_xor_comm]
  simp only [shift1, hnew]
  rw [← List.tail_zipWith, List.zipWith_append h]
  rfl

end Sys2Proof.Machine
end

section
/-! Proofs of the statements on the majority clock (spec/41_majority_clock.md): which registers ENABLES
selects, and how many. -/

namespace Sys2Proof.Machine

open Sys2Proof

/-! ### ENABLES by the minority bit -/

theorem enables_of_agree (a : Bit) : enables ⟨a, a, a⟩ = (a, ⟨true, true, true⟩) := by
  cases a <;> rfl

theorem enables_of_minority_b1 (a : Bit) : enables ⟨!a, a, a⟩ = (a, ⟨false, true, true⟩) := by
  cases a <;> rfl

theorem enables_of_minority_b2 (a : Bit) : enables ⟨a, !a, a⟩ = (a, ⟨true, false, true⟩) := by
  cases a <;> rfl

theorem enables_of_minority_b3 (a : Bit) : enables ⟨a, a, !a⟩ = (a, ⟨true, true, false⟩) := by
  cases a <;> rfl

/-! ### Two or three registers -/

/-- How many of the three bits are set. -/
def Bits3.count (x : Bits3) : Nat := x.b1.toNat + x.b2.toNat + x.b3.toNat

theorem enables_count_of_agree {cb : Bits3} (h : cb.b1 = cb.b2 ∧ cb.b2 = cb.b3) :
    (enables cb).2.count = 3 := by
  obtain ⟨a, b, c⟩ := cb
  obtain ⟨rfl, rfl⟩ : a = b ∧ b = c := h
  rw [enables_of_agree]
  rfl

/-- Bits that do not agree have exactly one in the minority, and its register alone is not enabled. -/
theorem enables_count_of_not_agree {cb : Bits3} (h : ¬(cb.b1 = cb.b2 ∧ cb.b2 = cb.b3)) :
    (enables cb).2.count = 2 := by
  obtain ⟨a, b, c⟩ := cb
  by_cases hab : a = b
  · obtain rfl := hab
    obtain rfl : c = !a := Bool.eq_not_of_ne fun hca => h ⟨rfl, hca.symm⟩
    rw [enables_of_minority_b3]
    rfl
  · obtain rfl : a = !b := Bool.eq_not_of_ne hab
    by_cases hbc : b = c
    · obtain rfl := hbc
      rw [enables_of_minority_b1]
      rfl
    · obtain rfl : b = !c := Bool.eq_not_of_ne hbc
      rw [Bool.not_not, enables_of_minority_b2]
      rfl

/-- Settles O18: the table is MAJ evaluated, each enable is the comparison with the majority, and the
count is by whether the clocking bits agree. -/
theorem twoOrThreeRegistersShift : Obligations.TwoOrThreeRegistersShift := by
  refine ⟨by decide, fun cb => ⟨rfl, beq_iff_eq, beq_iff_eq, beq_iff_eq, ?_⟩⟩
  split
  case isTrue hagree => exact enables_count_of_agree hagree
  case isFalse hminority => exact enables_count_of_not_agree hminority

end Sys2Proof.Machine
end

section
/-! Proofs of the statements on the cipher and its sequencer (spec/42_cipher_fsm.md): loading and keystream,
SETTLE and TICK, the phases, the agreement of the two levels, the warm-up, key setup. -/

namespace Sys2Proof.Machine

open Sys2Proof

/-! ### LOADBIT and LOADSEQ -/

/-- Settles O19: each register of LOADBIT is its own SHIFT1 with the bit injected. -/
theorem loadBitShiftsEveryRegister : Obligations.LoadBitShiftsEveryRegister := by
  intro c R k x hx hne
  have hshift : x.2.2 = (shift1 x.1 x.2.1 k).1 := by
    simp only [List.mem_cons, List.not_mem_nil, or_false] at hx
    obtain rfl | rfl | rfl := hx <;> rfl
  rw [hshift]
  exact ⟨shift1_length _ _ _, shift1_moves _ _ _, shift1_new_bit _ _ _ hne⟩

theorem loadSeq_append (c : Cfg) (R : Regs) (s t : BitSeq) :
    loadSeq c R (s ++ t) = loadSeq c (loadSeq c R s) t := by
  induction s generalizing R with
  | nil => rfl
  | cons k s ih => exact ih (loadBit c R k)

/-- Settles O20, by induction on the first sequence. -/
theorem loadSeqComposes : Obligations.LoadSeqComposes :=
  fun c R => ⟨loadSeq_nil c R, loadSeq_cons c R, loadSeq_append c R⟩

/-! ### STEP and KS -/

/-- Enabled by comparison with the majority. -/
theorem shiftIf_beq (b m : Bit) (e : Entry) (r : BitSeq) :
    shiftIf (b == m) e r = if b = m then (shift1 e r false).1 else r := by
  simp [shiftIf]

/-- Settles O21: each enable compares a clocking bit of the old registers with their majority. -/
theorem stepShiftsTheMajority : Obligations.StepShiftsTheMajority :=
  fun _ _ => ⟨shiftIf_beq _ _ _ _, shiftIf_beq _ _ _ _, shiftIf_beq _ _ _ _, rfl⟩

theorem keystream_add (c : Cfg) (a b : Nat) (R : Regs) :
    keystream c (a + b) R =
      ((keystream c b (keystream c a R).1).1,
        (keystream c a R).2 ++ (keystream c b (keystream c a R).1).2) := by
  induction a generalizing R with
  | zero => rw [Nat.zero_add]; rfl
  | succ a ih => rw [Nat.succ_add, keystream_succ, ih]; rfl

/-- Settles O22: KS is cut after its first a bits; the cut before the last bit is the case b = 1. -/
theorem keystreamComposes : Obligations.KeystreamComposes := by
  intro c R a b
  refine ⟨rfl, keystream_length c a R, ?_, ?_, keystream_add c a 1 R⟩ <;> rw [keystream_add]

/-! ### The all-zero registers -/

@[simp] theorem loadSeq_zeros_construct (c : Cfg) (n : Nat) : loadSeq c (construct c) (zeros n) = construct c := by
  induction n with
  | zero => rfl
  | succ n ih =>
    rw [zeros, List.replicate_succ, loadSeq_cons, loadBit_construct]
    exact ih

@[simp] theorem cipherStep_construct (c : Cfg) : cipherStep c (construct c) = (construct c, false) := by
  simp [cipherStep]

@[simp] theorem warm_construct (c : Cfg) (n : Nat) : warm c n (construct c) = construct c := by
  induction n with
  | zero => rfl
  | succ n ih => rw [warm_succ, cipherStep_construct, ih]

@[simp] theorem keystream_construct (c : Cfg) (n : Nat) : keystream c n (construct c) = (construct c, zeros n) := by
  induction n with
  | zero => rfl
  | succ n ih => rw [keystream_succ, cipherStep_construct, ih]; rfl

/-- Settles O23: the all-zero registers are a fixed point of loading a 0 and of a step. -/
theorem allZeroIsAFixedPoint : Obligations.AllZeroIsAFixedPoint :=
  fun _ c _ => ⟨by simp [keySetup], keystream_construct c⟩

/-! ### SETTLE -/

section Settle

variable (P : Params) (S : CoreState)

/-- The first of WARMUP, READY that takes a tick or waits (`settleWarmup_entering`). -/
def phaseFromWarmup : Phase := if 0 < P.warmupN then .warmup else .ready

/-- The same from LOAD_FRAME on (`settleFrame_entering`). -/
def phaseFromFrame : Phase := if 0 < P.frameLen then .loadFrame else phaseFromWarmup P

/-- The same from LOAD_KEY on (`settle_entering`). -/
def phaseFromKey : Phase := if 0 < P.keyLen then .loadKey else phaseFromFrame P

/-- Only a complete count makes SETTLE leave a phase. -/
theorem settle_of_unfinished (hk : ¬(S.phase = .loadKey ∧ S.cnt = P.keyLen))
    (hf : ¬(S.phase = .loadFrame ∧ S.cnt = P.frameLen)) (hw : ¬(S.phase = .warmup ∧ S.cnt = P.warmupN)) :
    settle P S = S := by
  rw [settle, settleKey, if_neg hk, settleFrame, if_neg hf, settleWarmup, if_neg hw]

/-! Entering a phase with count 0 passes through it when its length is 0. -/

theorem settleWarmup_entering :
    settleWarmup P { S with phase := .warmup, cnt := 0 } = { S with phase := phaseFromWarmup P, cnt := 0 } := by
  rcases Nat.eq_zero_or_pos P.warmupN with h | h
  · simp [settleWarmup, phaseFromWarmup, h]
  · simp [settleWarmup, phaseFromWarmup, h, h.ne]

theorem settleFrame_entering :
    settleWarmup P (settleFrame P { S with phase := .loadFrame, cnt := 0 }) =
      { S with phase := phaseFromFrame P, cnt := 0 } := by
  rcases Nat.eq_zero_or_pos P.frameLen with h | h
  · rw [settleFrame, if_pos ⟨rfl, h.symm⟩, settleWarmup_entering, phaseFromFrame, if_neg h.not_gt]
  · rw [settleFrame, if_neg fun h' => h.ne h'.2, phaseFromFrame, if_pos h]
    rfl

theorem settle_entering :
    settle P { S with phase := .loadKey, cnt := 0 } = { S with phase := phaseFromKey P, cnt := 0 } := by
  rw [settle]
  rcases Nat.eq_zero_or_pos P.keyLen with h | h
  · rw [settleKey, if_pos ⟨rfl, h.symm⟩, settleFrame_entering, phaseFromKey, if_neg h.not_gt]
  · rw [settleKey, if_neg fun h' => h.ne h'.2, phaseFromKey, if_pos h]
    rfl

variable {P S}

theorem settle_of_keyDone (h : S.phase = .loadKey ∧ S.cnt = P.keyLen) :
    settle P S = { S with phase := phaseFromFrame P, cnt := 0 } := by
  rw [settle, settleKey, if_pos h, settleFrame_entering]

theorem settle_of_frameDone (h : S.phase = .loadFrame ∧ S.cnt = P.frameLen) :
    settle P S = { S with phase := phaseFromWarmup P, cnt := 0 } := by
  rw [settle, settleKey, if_neg (by simp [h.1]), settleFrame, if_pos h, settleWarmup_entering]

theorem settle_of_warmupDone (h : S.phase = .warmup ∧ S.cnt = P.warmupN) :
    settle P S = { S with phase := .ready, cnt := 0 } := by
  rw [settle, settleKey, if_neg (by simp [h.1]), settleFrame, if_neg (by simp [h.1]), settleWarmup, if_pos h]

end Settle

/-- Settles O27, one equation of SETTLE per clause. -/
theorem settleLeavesFinishedPhases : Obligations.SettleLeavesFinishedPhases := by
  intro P S
  simp only [← Nat.pos_iff_ne_zero]
  exact ⟨settle_of_keyDone, settle_of_frameDone, settle_of_warmupDone, settle_of_unfinished P S⟩

/-! ### TICK -/

section Tick

variable {S : CoreState} (P : Params)

theorem tick_of_loadKey (h : S.phase = .loadKey) : tick P S = (settle P (tickKey S), none) := by
  rw [tick, h]

theorem tick_of_loadFrame (h : S.phase = .loadFrame) : tick P S = (settle P (tickFrame S), none) := by
  rw [tick, h]

theorem tick_of_warmup (h : S.phase = .warmup) : tick P S = (settle P (tickWarmup S), none) := by
  rw [tick, h]

end Tick

/-- Settles O26, one equation of TICK per phase; in READY and RUNNING SETTLE has nothing to do. -/
theorem tickIsOneLoadOrOneStep : Obligations.TickIsOneLoadOrOneStep :=
  fun P S _ => ⟨tick_of_loadKey P, tick_of_loadFrame P, tick_of_warmup P, tick_run P S⟩

/-! ### The micro-step by its event -/

/-- The state after the acceptance of the command presented on these ports. -/
def accepted (p : Ports) (s : State) : State := accept (decode s.params p) (takeInput s)

theorem cycle_of_tick {s : State} (he : nextEvent s = .tick) : cycle s = advance (passEdge s) := by
  rw [cycle, he]

theorem cycle_of_command {s : State} {p : Ports} (he : nextEvent s = .command p) : cycle s = accepted p s := by
  rw [cycle, he]
  rfl

/-! ### The table of the phases -/

section PhaseTable

variable {P : Params} {S : CoreState}

/-- SETTLE of a counting phase, which it leaves at its length and not before. -/
theorem settle_phase_cnt {p q : Phase} {len : Nat} (hp : S.phase = p)
    (hdone : S.phase = p ∧ S.cnt = len → settle P S = { S with phase := q, cnt := 0 })
    (hopen : S.cnt ≠ len → settle P S = S) :
    (S.cnt = len → (settle P S).phase = q ∧ (settle P S).cnt = 0) ∧
    (S.cnt ≠ len → (settle P S).phase = p ∧ (settle P S).cnt = S.cnt) := by
  refine ⟨fun hc => ?_, fun hc => ?_⟩
  · rw [hdone ⟨hp, hc⟩]
    exact ⟨rfl, rfl⟩
  · rw [hopen hc]
    exact ⟨hp, rfl⟩

theorem tick_phase_of_loadKey (h : S.phase = .loadKey) :
    (S.cnt + 1 = P.keyLen → (tick P S).1.phase = phaseFromFrame P ∧ (tick P S).1.cnt = 0) ∧
    (S.cnt + 1 ≠ P.keyLen → (tick P S).1.phase = .loadKey ∧ (tick P S).1.cnt = S.cnt + 1) := by
  rw [tick_of_loadKey P h]
  have hp : (tickKey S).phase = .loadKey := h
  exact settle_phase_cnt hp settle_of_keyDone fun hc =>
    settle_of_unfinished P _ (fun h' => hc h'.2) (by simp [hp]) (by simp [hp])

theorem tick_phase_of_loadFrame (h : S.phase = .loadFrame) :
    (S.cnt + 1 = P.frameLen → (tick P S).1.phase = phaseFromWarmup P ∧ (tick P S).1.cnt = 0) ∧
    (S.cnt + 1 ≠ P.frameLen → (tick P S).1.phase = .loadFrame ∧ (tick P S).1.cnt = S.cnt + 1) := by
  rw [tick_of_loadFrame P h]
  have hp : (tickFrame S).phase = .loadFrame := h
  exact settle_phase_cnt hp settle_of_frameDone fun hc =>
    settle_of_unfinished P _ (by simp [hp]) (fun h' => hc h'.2) (by simp [hp])

theorem tick_phase_of_warmup (h : S.phase = .warmup) :
    (S.cnt + 1 = P.warmupN → (tick P S).1.phase = .ready ∧ (tick P S).1.cnt = 0) ∧
    (S.cnt + 1 ≠ P.warmupN → (tick P S).1.phase = .warmup ∧ (tick P S).1.cnt = S.cnt + 1) := by
  rw [tick_of_warmup P h]
  have hp : (tickWarmup S).phase = .warmup := h
  exact settle_phase_cnt hp settle_of_warmupDone fun hc =>
    settle_of_unfinished P _ (by simp [hp]) (by simp [hp]) (fun h' => hc h'.2)

theorem tick_phase_of_producing (h : S.phase = .ready ∨ S.phase = .running) : (tick P S).1.phase = .running := by
  rw [tick_run P S h]
  rfl

variable {s : State}

theorem accept_init_phase (c : Cfg) :
    (accept (.init c) s).arch.phase = if wfCfg s.params c then .unloaded else s.arch.phase := by
  split
  case isTrue hc => rw [accept_init_of_wf hc]
  case isFalse hc => simp [accept, acceptInit, hc]

/-- START accepted in UNLOADED begins loading, which SETTLE may end at once. -/
theorem accept_start_of_unloaded {key frame : BitSeq} (hp : s.arch.phase = .unloaded)
    (hw : wfKeyFrame s.params key frame = true) :
    accept (.start key frame) s = openCommand .plain
      (settle s.params { s.arch with keyL := key, frameL := frame, phase := .loadKey, cnt := 0 }) s := by
  rw [accept, acceptStart, if_pos hp, if_pos hw]

theorem accept_start_phase {key frame : BitSeq} (hw : wfKeyFrame s.params key frame = true) :
    (accept (.start key frame) s).arch.phase =
      if s.arch.phase = .unloaded then phaseFromKey s.params else s.arch.phase := by
  split
  case isTrue hp =>
    rw [accept_start_of_unloaded hp hw, openCommand_arch,
      settle_entering s.params { s.arch with keyL := key, frameL := frame }]
  case isFalse hp => simp [accept, acceptStart, hp]

theorem accept_phase_of_other {i : Instr} (hinit : ∀ c, i ≠ .init c)
    (hstart : ∀ key frame, i ≠ .start key frame) :
    (accept i s).arch.phase = s.arch.phase := by
  obtain ⟨c, h, -⟩ | ⟨key, frame, h, -⟩ | ⟨n, h⟩ := accept_frame i s
  · exact absurd h (hinit c)
  · exact absurd h (hstart key frame)
  · rw [h]

/-- Every START the ports carry has a key of KEY_LEN and a frame of FRAME_LEN bits. -/
theorem wfKeyFrame_of_decode {P : Params} {p : Ports} {key frame : BitSeq}
    (h : decode P p = .start key frame) : wfKeyFrame P key frame = true := by
  have hfits := decodedCommandsFitTheirPorts P p
  rwa [h] at hfits

end PhaseTable

/-- Settles O29, by what the micro-step is, and in the tick and the acceptance by the rows of the table. -/
theorem phaseTransitionsFollowTheTable : Obligations.PhaseTransitionsFollowTheTable := by
  intro s _
  refine ⟨fun he => ?_, fun he => ?_, fun he => ?_, fun p he => ?_⟩
  case refine_1 => rw [cycle, he]; rfl
  case refine_2 => rw [cycle, he]; rfl
  case refine_3 =>
    rw [cycle_of_tick he, advance_arch]
    exact ⟨fun h => (tick_phase_of_loadKey h).1, fun h => (tick_phase_of_loadKey h).2,
      fun h => (tick_phase_of_loadFrame h).1, fun h => (tick_phase_of_loadFrame h).2,
      fun h => (tick_phase_of_warmup h).1, fun h => (tick_phase_of_warmup h).2, tick_phase_of_producing⟩
  case refine_4 =>
    rw [cycle_of_command he, accepted]
    refine ⟨fun c hd => ?_, fun key frame hd => ?_, accept_phase_of_other⟩
    · rw [hd]
      exact accept_init_phase c
    · rw [hd]
      exact accept_start_phase (s := takeInput s) (wfKeyFrame_of_decode hd)

/-! ### The work a command brings -/

/-- In the states of the invariant the work left tells busy from idle. -/
theorem busy_iff_workLeft_pos {P : Params} {S : CoreState} (hi : S.Inv P) :
    busy S = true ↔ 0 < workLeft P S := by
  obtain ⟨-, -, -, -, ⟨hkey, hframe, hwarm, -⟩, -⟩ := hi
  unfold busy workLeft
  cases hp : S.phase
  case loadKey =>
    exact iff_of_true rfl (Nat.add_pos_left (Nat.add_pos_left (Nat.sub_pos_of_lt (hkey hp)) _) _)
  case loadFrame => exact iff_of_true rfl (Nat.add_pos_left (Nat.sub_pos_of_lt (hframe hp)) _)
  case warmup => exact iff_of_true rfl (Nat.sub_pos_of_lt (hwarm hp))
  all_goals simp

theorem workLeft_of_idle {S : CoreState} (P : Params) (hb : busy S = false) : workLeft P S = 0 := by
  obtain ⟨hp, hn⟩ := (busy_eq_false_iff S).1 hb
  obtain hp | hp | hp | hp := hp <;> simp [workLeft, hp, hn]

theorem workLeft_withNrem {S : CoreState} (P : Params) (n : Nat) (hp : S.phase = .ready ∨ S.phase = .running) :
    workLeft P { S with nrem := n } = n := by
  obtain hp | hp := hp <;> simp [workLeft, hp]

/-- START begins with all its ticks to run, also where SETTLE passes through phases of length 0. -/
theorem workLeft_settle_entering (P : Params) (S : CoreState) (hn : S.nrem = 0) :
    workLeft P (settle P { S with phase := .loadKey, cnt := 0 }) = P.keyLen + P.frameLen + P.warmupN := by
  rw [settle_entering, phaseFromKey, phaseFromFrame, phaseFromWarmup]
  split_ifs <;> simp only [workLeft] <;> omega

section AcceptWork

variable {s : State} (hb : busy s.arch = false)
include hb

theorem workLeft_acceptInit (c : Cfg) : workLeft s.params (acceptInit c s).arch = 0 := by
  unfold acceptInit
  split
  · rfl
  · exact workLeft_of_idle _ hb

theorem workLeft_acceptStart (key frame : BitSeq) :
    workLeft s.params (acceptStart key frame s).arch = tickCount (.start key frame) s := by
  have hidle := workLeft_of_idle s.params hb
  unfold acceptStart
  split
  case isFalse hp => rwa [tickCount, if_neg fun h => hp h.1]
  case isTrue hp =>
    split
    case isFalse hw => rwa [tickCount, if_neg fun h => hw h.2]
    case isTrue hw =>
      rw [openCommand_arch, tickCount, if_pos ⟨hp, hw⟩]
      exact workLeft_settle_entering _ { s.arch with keyL := key, frameL := frame }
        ((busy_eq_false_iff _).1 hb).2

/-- NEXT and NEXTN ask for their bits in READY and RUNNING, and are an error elsewhere. -/
theorem workLeft_askKeystream (r : Reply) (n : Nat) :
    workLeft s.params
        (if producesKeystream s.arch.phase then openCommand r { s.arch with nrem := n } s
          else raiseError .errPhase s).arch =
      if producesKeystream s.arch.phase then n else 0 := by
  split
  case isTrue hp =>
    rw [openCommand_arch]
    exact workLeft_withNrem _ n ((producesKeystream_iff _).1 hp)
  case isFalse => exact workLeft_of_idle _ hb

theorem workLeft_combineX (tlen klen : Nat) (text ks : BitSeq) :
    workLeft s.params (combineX tlen klen text ks s).arch = 0 := by
  obtain ⟨st, pl, -, h⟩ := combineX_effect s tlen klen text ks
  rw [h]
  exact workLeft_of_idle _ hb

/-- An accepted command leaves exactly its ticks to run (42_cipher_fsm.md R127). -/
theorem workLeft_accept (i : Instr) : workLeft s.params (accept i s).arch = tickCount i s := by
  cases i
  case init c => exact workLeft_acceptInit hb c
  case start key frame => exact workLeft_acceptStart hb key frame
  case next => exact workLeft_askKeystream hb .oneBit 1
  case nextn n => exact workLeft_askKeystream hb .bits n
  case combine => exact workLeft_combineX hb _ _ _ _
  case encrypt => exact workLeft_combineX hb _ _ _ _
  case decrypt => exact workLeft_combineX hb _ _ _ _
  all_goals exact workLeft_of_idle _ hb

end AcceptWork

/-! ### The two levels -/

theorem cycles_succ (n : Nat) (s : State) : cycles (n + 1) s = cycle (cycles n s) := by
  induction n generalizing s with
  | zero => rfl
  | succ n ih => exact ih (cycle s)

section Unattended

/-! A busy core to which the host presents nothing. -/

variable {s : State} (hi : s.Inv) (hin : s.inputs = [])
include hin

/-- A micro-step of a busy core is its tick. -/
theorem cycle_busy_unattended (hb : busy s.arch = true) : cycle s = advance s := by
  have he : nextEvent s = .tick := by simp [nextEvent, hin, hb]
  have hpass : passEdge s = { s with rsp := none } := by simp [passEdge, hin]
  rw [cycle_of_tick he, hpass]
  rfl

include hi

/-- While there is work left each micro-step does one tick of it. -/
theorem cycles_unattended {n : Nat} (hn : n ≤ workLeft s.params s.arch) :
    cycles n s = runTicks n s ∧ workLeft s.params (cycles n s).arch + n = workLeft s.params s.arch := by
  induction n generalizing s with
  | zero => exact ⟨rfl, rfl⟩
  | succ n ih =>
    have ⟨_, hcore, howes, _⟩ := hi
    have hb : busy s.arch = true := (busy_iff_workLeft_pos hcore).2 (by omega)
    have howed : s.inFlight.isSome = true := howes.trans hb
    have hwork := (tick_work s.params s.arch hcore hb).1
    obtain ⟨hrun, hleft⟩ := ih (advance_inv s hi hb) (by rw [advance_inputs, hin])
      (by rw [advance_params, advance_arch]; omega)
    rw [advance_params, advance_arch] at hleft
    rw [cycles, cycle_busy_unattended hin hb, runTicks, if_pos howed]
    exact ⟨hrun, by omega⟩

/-- Run to its end tick by tick, a command is finished. -/
theorem cycles_workLeft_unattended : cycles (workLeft s.params s.arch) s = finish s :=
  (cycles_unattended hi hin le_rfl).1

theorem cycles_busy_unattended {k : Nat} (hk : k < workLeft s.params s.arch) :
    busy (cycles k s).arch = true := by
  obtain ⟨-, hcore, -⟩ := cycles_inv k hi
  rw [cycles_params] at hcore
  obtain ⟨-, hleft⟩ := cycles_unattended hi hin hk.le
  exact (busy_iff_workLeft_pos hcore).2 (by omega)

theorem cycles_inputs_unattended {k : Nat} (hk : k ≤ workLeft s.params s.arch) : (cycles k s).inputs = [] := by
  rw [(cycles_unattended hi hin hk).1, runTicks_inputs, hin]

/-- A later micro-step of the command is the tick of the state before. -/
theorem cycles_succ_unattended {k : Nat} (hk : k < workLeft s.params s.arch) :
    cycles (k + 1) s = advance (cycles k s) := by
  rw [cycles_succ, cycle_busy_unattended (cycles_inputs_unattended hi hin hk.le) (cycles_busy_unattended hi hin hk)]

/-- Nothing is answered while there is work left. -/
theorem cycles_rsp_unattended (hrsp : s.rsp = none) {k : Nat} (hk : k < workLeft s.params s.arch) :
    (cycles k s).rsp = none := by
  cases k with
  | zero => exact hrsp
  | succ k =>
    have hbusy := cycles_busy_unattended hi hin hk
    rw [cycles_succ_unattended hi hin (Nat.lt_of_succ_lt hk)] at hbusy ⊢
    refine Option.eq_none_iff_forall_ne_some.2 fun r hr => ?_
    obtain ⟨hidle, -⟩ := advance_rsp hr
    exact Bool.false_ne_true (hidle.symm.trans hbusy)

/-- START's phases are not left while there is work left. -/
theorem cycles_loading_unattended (hl : s.arch.Loading) {k : Nat} (hk : k < workLeft s.params s.arch) :
    (cycles k s).arch.Loading := by
  induction k with
  | zero => exact hl
  | succ k ih =>
    have hk' := Nat.lt_of_succ_lt hk
    have hbusy := cycles_busy_unattended hi hin hk
    obtain ⟨-, hcore, -⟩ := cycles_inv k hi
    obtain ⟨-, hstay, -⟩ := tick_inv _ _ hcore (cycles_busy_unattended hi hin hk')
    rw [cycles_succ_unattended hi hin hk', advance_arch] at hbusy ⊢
    exact (hstay (ih hk')).resolve_right (by simp [hbusy])

end Unattended

section Presented

/-! A command presented to an idle core. -/

variable {s : State} {p : Ports}

@[simp] theorem accepted_params : (accepted p s).params = s.params := by simp [accepted]

theorem accepted_inputs (hin : s.inputs = [.command p]) : (accepted p s).inputs = [] := by
  simp [accepted, hin]

variable (hb : busy s.arch = false)
include hb

theorem accepted_inv (hi : s.Inv) : (accepted p s).Inv :=
  accept_inv (decodedCommandsFitTheirPorts _ p) (takeInput_inv hi) hb

theorem workLeft_accepted :
    workLeft (accepted p s).params (accepted p s).arch = tickCount (decode s.params p) s := by
  rw [accepted_params]
  exact workLeft_accept (s := takeInput s) hb _

variable (hin : s.inputs = [.command p])
include hin

theorem nextEvent_idle_command : nextEvent s = .command p := by
  simp [nextEvent, hin, hb]

theorem cycles_succ_presented (k : Nat) : cycles (k + 1) s = cycles k (accepted p s) := by
  rw [cycles, cycle_of_command (nextEvent_idle_command hb hin)]

theorem step_presented : step s = exec (decode s.params p) (takeInput s) := by
  rw [step, nextEvent_idle_command hb hin]

theorem step_eq_finish_accepted : step s = .next (finish (accepted p s)) :=
  (step_presented hb hin).trans (exec_eq_finish_accept _ _)

end Presented

/-- Settles O30: accepted, the command leaves exactly its ticks, each micro-step does one of them, and `finish`
is all of them. -/
theorem ticksAgreeWithWholeCommands : Obligations.TicksAgreeWithWholeCommands := by
  intro s p hi hidle hin
  have hb : busy s.arch = false := by simpa using hidle
  have hinv : (accepted p s).Inv := accepted_inv hb hi
  have hin' := accepted_inputs hin
  rw [← workLeft_accepted hb]
  refine ⟨?_, fun k hk hk0 => ?_⟩
  · rw [step_eq_finish_accepted hb hin, cycles_succ_presented hb hin, cycles_workLeft_unattended hinv hin']
  · obtain ⟨k, rfl⟩ := Nat.exists_eq_succ_of_ne_zero hk0
    rw [cycles_succ_presented hb hin]
    exact cycles_busy_unattended hinv hin' hk

/-! ### START -/

section Start

variable {s : State} {p : Ports} {key frame : BitSeq} (hi : s.Inv) (hb : busy s.arch = false)
  (hp : s.arch.phase = .unloaded) (hd : decode s.params p = .start key frame) (hin : s.inputs = [.command p])
include hp hd

theorem tickCount_start :
    tickCount (decode s.params p) s = s.params.keyLen + s.params.frameLen + s.params.warmupN := by
  rw [hd, tickCount, if_pos ⟨hp, wfKeyFrame_of_decode hd⟩]

theorem accepted_start :
    accepted p s = openCommand .plain
      (settle s.params { s.arch with keyL := key, frameL := frame, phase := .loadKey, cnt := 0 }) (takeInput s) := by
  rw [accepted, hd]
  exact accept_start_of_unloaded (s := takeInput s) hp (wfKeyFrame_of_decode hd)

include hi hb

/-- When its acceptance leaves START ticks to run, it is loading and unanswered: what is owed is START's. -/
theorem accepted_start_of_busy (hbusy : busy (accepted p s).arch = true) :
    (accepted p s).arch.Loading ∧ (accepted p s).rsp = none := by
  obtain ⟨-, -, -, howed⟩ := accepted_inv (p := p) hb hi
  rw [accepted_start hp hd, openCommand_arch] at hbusy
  rw [accepted_start hp hd, openCommand_busy _ _ _ hbusy] at howed ⊢
  exact ⟨(howed _ rfl).1 rfl, rfl⟩

include hin

/-- From the acceptance of START until its last tick the core is loading and answers nothing. -/
theorem cycles_start {k : Nat} (hk0 : 0 < k) (hk : k ≤ s.params.keyLen + s.params.frameLen + s.params.warmupN) :
    busy (cycles k s).arch = true ∧ (cycles k s).arch.Loading ∧ (cycles k s).rsp = none := by
  have hinv : (accepted p s).Inv := accepted_inv hb hi
  have hin' := accepted_inputs hin
  rw [← tickCount_start hp hd, ← workLeft_accepted hb] at hk
  obtain ⟨k, rfl⟩ := Nat.exists_eq_succ_of_ne_zero hk0.ne'
  obtain ⟨hl, hrsp⟩ := accepted_start_of_busy hi hb hp hd
    (cycles_busy_unattended hinv hin' (k := 0) (Nat.zero_lt_of_lt hk))
  rw [cycles_succ_presented hb hin]
  exact ⟨cycles_busy_unattended hinv hin' hk, cycles_loading_unattended hinv hin' hl hk,
    cycles_rsp_unattended hinv hin' hrsp hk⟩

/-- After all its ticks START is the whole command: READY, answered OK. -/
theorem cycles_start_done :
    (cycles (s.params.keyLen + s.params.frameLen + s.params.warmupN + 1) s).arch.phase = .ready ∧
    (cycles (s.params.keyLen + s.params.frameLen + s.params.warmupN + 1) s).rsp = some ⟨.ok, .ready, .none⟩ := by
  obtain ⟨hk, hf⟩ : key.length = s.params.keyLen ∧ frame.length = s.params.frameLen := by
    simpa [wfKeyFrame] using wfKeyFrame_of_decode hd
  obtain ⟨hstep, -⟩ := ticksAgreeWithWholeCommands s p hi (by simp [hb]) hin
  rw [tickCount_start hp hd, step_presented hb hin, hd] at hstep
  have hexec := exec_start_of_unloaded (s := takeInput s) hp ((busy_eq_false_iff _).1 hb).2 hk hf
  rw [← Host.Outcome.next.inj (hexec.symm.trans hstep)]
  exact ⟨rfl, rfl⟩

end Start

/-- Settles O31: until the last tick the core is in one of START's phases, in which nothing is emitted; the end
is that of the whole command. -/
theorem warmupIsNeverObserved : Obligations.WarmupIsNeverObserved := by
  intro s p key frame hi hidle hp hd hin
  have hb : busy s.arch = false := by simpa using hidle
  have hquiet : ∀ k, 0 < k → k ≤ s.params.keyLen + s.params.frameLen + s.params.warmupN →
      (cycles k s).rsp = none ∧ cmdReady (cycles k s) = false ∧
      (cycles k s).arch.phase ≠ .ready ∧ (cycles k s).arch.phase ≠ .running := by
    intro k hk0 hk
    obtain ⟨hbusy, hl, hrsp⟩ := cycles_start hi hb hp hd hin hk0 hk
    refine ⟨hrsp, by simp [cmdReady, hbusy], ?_⟩
    obtain h | h | h := hl <;> simp [h]
  refine ⟨fun k hk => ?_, hquiet, cycles_start_done hi hb hp hd hin⟩
  by_contra hemit
  obtain ⟨-, hphase, -⟩ := onlyReadyAndRunningEmit _ hemit
  rcases Nat.eq_zero_or_pos k with rfl | hk0
  · simp [cycles, hp] at hphase
  · obtain ⟨-, -, hready, hrunning⟩ := hquiet k hk0 hk
    exact hphase.elim hready hrunning

/-! ### Key setup -/

theorem execAll_cons {i : Instr} {s t : State} (is : List Instr) (h : exec i s = .next t) :
    execAll (i :: is) s = execAll is t := by
  rw [execAll, h]

/-- INIT and START write all that KEYSETUP reads (42_cipher_fsm.md R120). -/
theorem execAll_init_start {s : State} {c : Cfg} {key frame : BitSeq} (is : List Instr)
    (hc : wfCfg s.params c = true) (hk : key.length = s.params.keyLen) (hf : frame.length = s.params.frameLen) :
    execAll (.init c :: .start key frame :: is) s = execAll is (keyedState c key frame s) := by
  rw [execAll_cons _ (exec_init_of_wf hc)]
  exact execAll_cons is (exec_start_of_unloaded rfl rfl hk hf)

/-- Settles O48: after INIT and START, NEXTN is KS from KEYSETUP's registers. -/
theorem keySetupForgetsThePast : Obligations.KeySetupForgetsThePast := by
  intro c key frame n s _ hc hk hf
  rw [execAll_init_start _ hc hk hf,
    execAll_cons _ (exec_nextn_of_producing (s := keyedState c key frame s) n rfl (.inl rfl))]
  exact ⟨_, _, rfl, rfl, rfl, rfl, rfl, rfl⟩

end Sys2Proof.Machine
end

section
/-! Proofs of the statements on the combiner (spec/43_combiner.md): XORSEQ by its bits, XOR's laws on
sequences, the response ports of the X-format commands. -/

namespace Sys2Proof.Machine

open Sys2Proof

/-! ### Bits of a sequence -/

/-- A sequence is its length and its bits. -/
theorem eq_of_bitAt {r s : BitSeq} (hlen : r.length = s.length) (hbit : ∀ i, bitAt r i = bitAt s i) : r = s := by
  refine List.ext_getElem hlen fun i hr hs => ?_
  simpa [bitAt, List.getElem?_eq_getElem hr, List.getElem?_eq_getElem hs] using hbit i

theorem bitAt_of_length_le {s : BitSeq} {i : Nat} (h : s.length ≤ i) : bitAt s i = false :=
  List.getD_eq_default s false h

theorem bitAt_take_of_lt (s : BitSeq) {n i : Nat} (h : i < n) : bitAt (s.take n) i = bitAt s i := by
  simp [bitAt, List.getElem?_take_of_lt h]

theorem length_zipWith_xor {r s : BitSeq} (h : r.length = s.length) :
    (List.zipWith Bool.xor r s).length = r.length := by
  rw [List.length_zipWith, ← h, Nat.min_self]

/-- On equal lengths both operands and the result read 0 from the length on, so no bound on the index is
needed. -/
theorem bitAt_zipWith_xor {r s : BitSeq} (h : r.length = s.length) (i : Nat) :
    bitAt (List.zipWith Bool.xor r s) i = Bool.xor (bitAt r i) (bitAt s i) := by
  rcases Nat.lt_or_ge i r.length with hi | hi
  · simp [bitAt, List.getElem?_zipWith, List.getElem?_eq_getElem hi, List.getElem?_eq_getElem (h ▸ hi)]
  · rw [bitAt_of_length_le hi, bitAt_of_length_le (h.symm.le.trans hi),
      bitAt_of_length_le ((length_zipWith_xor h).le.trans hi), Bool.xor_false]

/-! ### XORSEQ -/

/-- What it is for XORSEQ to give a result: the three lengths agree, and each bit is the XOR of the
operands' bits (43_combiner.md R141). -/
theorem xorSeq_eq_ok_iff {text ks result : BitSeq} :
    xorSeq text ks = .ok result ↔
      text.length = ks.length ∧ result.length = text.length ∧
        ∀ i, bitAt result i = Bool.xor (bitAt text i) (bitAt ks i) := by
  by_cases h : text.length = ks.length
  case neg => simp [xorSeq_of_length_ne h, h]
  case pos =>
    have hlen := length_zipWith_xor h
    rw [xorSeq_of_length_eq h, Except.ok.injEq]
    constructor
    · rintro rfl
      exact ⟨h, hlen, bitAt_zipWith_xor h⟩
    · rintro ⟨-, hres, hbit⟩
      exact eq_of_bitAt (hlen.trans hres.symm) fun i => (bitAt_zipWith_xor h i).trans (hbit i).symm

/-- Settles O24, from the two cases of the length check. -/
theorem xorSeqIsBitwise : Obligations.XorSeqIsBitwise := by
  refine fun text ks => ⟨xorSeq_of_length_ne, fun h => ?_⟩
  have hok := xorSeq_of_length_eq h
  obtain ⟨-, hlen, hbit⟩ := xorSeq_eq_ok_iff.1 hok
  exact ⟨_, hok, hlen, fun i _ => hbit i⟩

/-- Settles O25: each clause is a law of XOR on one bit, at every index. -/
theorem combiningTwiceGivesTheText : Obligations.CombiningTwiceGivesTheText := by
  intro text ks result hok
  obtain ⟨h, hlen, hbit⟩ := xorSeq_eq_ok_iff.1 hok
  refine ⟨hlen, xorSeq_eq_ok_iff.2 ⟨hlen.trans h, hlen.symm, fun i => ?involution⟩,
    xorSeq_eq_ok_iff.2 ⟨h.symm, hlen.trans h, fun i => ?commutativity⟩,
    xorSeq_eq_ok_iff.2 ⟨(zeros_length _).symm, rfl, fun i => ?identity⟩,
    xorSeq_eq_ok_iff.2 ⟨rfl, zeros_length _, fun i => ?selfInverse⟩⟩
  case involution => rw [hbit, Bool.xor_assoc, Bool.xor_self, Bool.xor_false]
  case commutativity => rw [hbit, Bool.xor_comm]
  case identity => rw [bitAt_zeros, Bool.xor_false]
  case selfInverse => rw [bitAt_zeros, Bool.xor_self]

/-! ### The response ports -/

/-- On `rsp_data` the result of n used bits is their XOR, and 0 above (43_combiner.md R143). -/
theorem testBit_dataOut_text {n : Nat} {text ks : BitSeq} (ht : n ≤ text.length) (hk : n ≤ ks.length)
    (st : Status) (ph : Phase) (j : Nat) :
    (Response.dataOut ⟨st, ph, .text (List.zipWith Bool.xor (text.take n) (ks.take n))⟩).testBit j =
      if j < n then Bool.xor (bitAt text j) (bitAt ks j) else false := by
  have htake : (text.take n).length = n := List.length_take_of_le ht
  have hktake : (ks.take n).length = n := List.length_take_of_le hk
  rw [Response.dataOut, testBit_natOfBits, bitAt_zipWith_xor (htake.trans hktake.symm)]
  split
  case isTrue hj => rw [bitAt_take_of_lt text hj, bitAt_take_of_lt ks hj]
  case isFalse hj =>
    have hle := Nat.le_of_not_lt hj
    rw [bitAt_of_length_le (htake.le.trans hle), bitAt_of_length_le (hktake.le.trans hle), Bool.xor_false]

/-- The three X-format commands are one operation (44_host_commands.md R155 to R157). -/
theorem exec_eq_combineX {tlen klen : Nat} {text ks : BitSeq} {i : Instr} (s : State)
    (hi : i ∈ [Instr.combine tlen klen text ks, .encrypt tlen klen text ks, .decrypt tlen klen text ks]) :
    exec i s = .next (combineX tlen klen text ks s) := by
  simp only [List.mem_cons, List.not_mem_nil, or_false] at hi
  obtain rfl | rfl | rfl := hi <;> rfl

/-- Settles O55: one operation under three opcodes, and its response read at the ports. -/
theorem combinerResponsePorts : Obligations.CombinerResponsePorts := by
  intro n text ks s _ ht hk i hi
  rw [exec_eq_combineX s hi, (combineX_eq n n text ks s ht hk).1 rfl]
  refine ⟨_, _, rfl, rfl, rfl, ?_, testBit_dataOut_text ht hk _ _⟩
  simp [Response.lenOut, ht, hk]

end Sys2Proof.Machine
end

section
/-! Proofs of the statements on the host's commands (spec/44_host_commands.md): the answer of each command in
every idle phase with the whole next state, and the table of R162. -/

namespace Sys2Proof.Machine

open Sys2Proof

theorem not_busy_of_idle {S : CoreState} (h : idle S = true) : busy S = false := by simpa using h

/-! ### Every command and every step answers (R150) -/

/-- Settles O35: a command is its acceptance run to its response, and each kind of step has a next state. -/
theorem nothingStopsTheCore : Obligations.NothingStopsTheCore := by
  refine ⟨fun i s => ⟨_, exec_eq_finish_accept s i⟩, fun s => ?_⟩
  obtain ⟨-, h⟩ | ⟨-, -, h⟩ | ⟨p, rest, -, -, -, h⟩ | ⟨-, -, h⟩ := step_cases s
  case inr.inr.inl => exact ⟨_, h.trans (exec_eq_finish_accept _ _)⟩
  all_goals exact ⟨_, h⟩

/-- An idle core to which nothing is presented waits (70_reset_and_hazards.md R221). -/
theorem step_idle_nothing {s : State} (hb : busy s.arch = false) (hin : s.inputs = []) :
    step s = .next { s with rsp := none } := by
  have he : nextEvent s = .wait := by simp [nextEvent, hin, hb]
  rw [step, he]
  simp [passEdge, hin]

/-- Settles O34; a word placed by withFetchWord is a presented command. -/
theorem stepRunsTheDecodedCommand : Obligations.StepRunsTheDecodedCommand := by
  refine ⟨fun s p rest hidle hin => ?_, fun s nbits w hidle => step_idle_command _ s.inputs (not_busy_of_idle hidle),
    fun s hidle hin => step_idle_nothing (not_busy_of_idle hidle) hin⟩
  have hstep := step_idle_command p rest (not_busy_of_idle hidle)
  rwa [← hin] at hstep

/-! ### STATUS, INIT, START (R159, R151, R152) -/

/-- Settles O44: STATUS is its response alone. -/
theorem statusReportsThePhase : Obligations.StatusReportsThePhase := fun _ _ => rfl

/-- Settles O45, from the two answers of INIT; its registers of zeros are CONSTRUCT's. -/
theorem initConstructs : Obligations.InitConstructs := fun _ _ _ =>
  ⟨exec_init_of_wf, exec_init_of_not_wf⟩

/-- Settles O46: the ticks of an accepted START are LOADSEQ of key and frame and WARM, and outside UNLOADED the
phase check fails. -/
theorem startLoadsAndWarmsUp : Obligations.StartLoadsAndWarmsUp := by
  intro key frame s hidle hk hf
  have hb := not_busy_of_idle hidle
  have hn : s.arch.nrem = 0 := ((busy_eq_false_iff _).1 hb).2
  exact ⟨fun hp => exec_start_of_unloaded hp hn hk hf, exec_start_badPhase key frame⟩

/-! ### NEXT and NEXTN (R153, R154) -/

/-- NEXT in READY and RUNNING is one STEP. -/
theorem exec_next_of_producing {s : State} (hp : s.arch.phase = .ready ∨ s.arch.phase = .running) :
    exec .next s = .next (respond .ok (.bit (cipherStep s.arch.cfg s.arch.regs).2)
      { s with
        arch := { s.arch with regs := (cipherStep s.arch.cfg s.arch.regs).1, phase := .running, nrem := 0 } }) := by
  rw [exec, execNext, acceptNext, if_pos ((producesKeystream_iff _).2 hp), finish_running s .oneBit 1 hp (by decide)]
  rfl

theorem exec_next_badPhase {s : State} (hp : ¬(s.arch.phase = .ready ∨ s.arch.phase = .running)) :
    exec .next s = .next (raiseError .errPhase s) := by
  rw [exec, execNext, acceptNext, if_neg (mt (producesKeystream_iff _).1 hp), finish_raiseError]

theorem exec_nextn_badPhase {s : State} (n : Nat) (hp : ¬(s.arch.phase = .ready ∨ s.arch.phase = .running)) :
    exec (.nextn n) s = .next (raiseError .errPhase s) := by
  rw [exec, execNextn, acceptNextn, if_neg (mt (producesKeystream_iff _).1 hp), finish_raiseError]

/-- NEXTN 0 writes nothing. -/
theorem exec_nextn_zero {s : State} (hb : busy s.arch = false)
    (hp : s.arch.phase = .ready ∨ s.arch.phase = .running) :
    exec (.nextn 0) s = .next (respond .ok (.keystream []) s) := by
  rw [exec, execNextn, acceptNextn, if_pos ((producesKeystream_iff _).2 hp),
    finish_nextn_zero s hp ((busy_eq_false_iff _).1 hb).2]

theorem not_producing_of_unkeyed {p : Phase} (h : p = .unbuilt ∨ p = .unloaded) :
    ¬(p = .ready ∨ p = .running) := by
  obtain rfl | rfl := h <;> decide

/-- Settles O49, one branch of NEXT's phase check per clause. -/
theorem nextProducesOneBit : Obligations.NextProducesOneBit := fun _ _ =>
  ⟨exec_next_of_producing, fun hp => exec_next_badPhase (not_producing_of_unkeyed hp)⟩

/-- Settles O50: NEXTN with n ≥ 1, with n = 0, and in a wrong phase. -/
theorem nextnProducesKeystream : Obligations.NextnProducesKeystream := by
  intro n s hidle
  have hb := not_busy_of_idle hidle
  refine ⟨fun hp hn => ?_, exec_nextn_zero hb, fun hp => exec_nextn_badPhase n (not_producing_of_unkeyed hp)⟩
  rw [exec_nextn_of_producing n hb hp, if_neg (Nat.ne_of_gt hn)]
  rfl

/-- The state of the core after n keystream bits (`exec_nextn_arch`, `execAll_replicate_next`). -/
def CoreState.afterKeystream (n : Nat) (S : CoreState) : CoreState :=
  { S with
    regs := (keystream S.cfg n S.regs).1, phase := if n = 0 then S.phase else .running, nrem := 0 }

theorem afterKeystream_zero {S : CoreState} (hn : S.nrem = 0) : S.afterKeystream 0 = S := by
  rw [CoreState.afterKeystream, keystream_zero, if_pos rfl, ← hn]

/-- After the STEP of a first bit, the n bits that follow. -/
theorem afterKeystream_succ (n : Nat) (S : CoreState) :
    CoreState.afterKeystream n { S with regs := (cipherStep S.cfg S.regs).1, phase := .running, nrem := 0 } =
      S.afterKeystream (n + 1) := by
  simp [CoreState.afterKeystream, keystream_succ]

theorem exec_nextn_arch {s : State} (n : Nat) (hb : busy s.arch = false)
    (hp : s.arch.phase = .ready ∨ s.arch.phase = .running) :
    ∃ t, exec (.nextn n) s = .next t ∧ t.arch = s.arch.afterKeystream n :=
  ⟨_, exec_nextn_of_producing n hb hp, rfl⟩

theorem execAll_replicate_next {s : State} (n : Nat) (hb : busy s.arch = false)
    (hp : s.arch.phase = .ready ∨ s.arch.phase = .running) :
    ∃ t, execAll (List.replicate n .next) s = .next t ∧ t.arch = s.arch.afterKeystream n := by
  induction n generalizing s with
  | zero => exact ⟨s, rfl, (afterKeystream_zero ((busy_eq_false_iff _).1 hb).2).symm⟩
  | succ n ih =>
    rw [List.replicate_succ, execAll_cons _ (exec_next_of_producing hp), ← afterKeystream_succ]
    exact ih rfl (.inr rfl)

/-- Settles O51: n NEXT and NEXTN n both leave `afterKeystream`; the bits are KS's recurrence, taken from the
state NEXT leaves. -/
theorem nextnIsRepeatedNext : Obligations.NextnIsRepeatedNext := by
  intro n s hidle hp
  have hb := not_busy_of_idle hidle
  obtain ⟨t, hnexts, ht⟩ := execAll_replicate_next n hb hp
  obtain ⟨t', hnextn, ht'⟩ := exec_nextn_arch n hb hp
  refine ⟨⟨t, t', hnexts, hnextn, ht'.trans ht.symm⟩, ?_⟩
  refine ⟨_, _, _, _, _, exec_next_of_producing hp, exec_nextn_of_producing n rfl (.inr rfl),
    exec_nextn_of_producing (n + 1) hb hp, rfl, ?_, rfl⟩
  simp only [respond_rsp, respond_arch, ite_self]

/-! ### COMBINE, ENCRYPT, DECRYPT (R155 to R157) -/

section Combiner

variable {tlen klen : Nat} {text ks : BitSeq} {i : Instr} (s : State)
  (hi : i ∈ [Instr.combine tlen klen text ks, .encrypt tlen klen text ks, .decrypt tlen klen text ks])
include hi

/-- What XORSEQ gives on the used bits is the payload. -/
theorem exec_combiner_of_xorSeq {result : BitSeq} (h : xorSeq (text.take tlen) (ks.take klen) = .ok result) :
    exec i s = .next (respond .ok (.text result) s) := by
  rw [exec_eq_combineX s hi, combineX, sampled, sampled, h]

variable (ht : tlen ≤ text.length) (hk : klen ≤ ks.length)
include ht hk

theorem exec_combiner_of_length_eq (h : tlen = klen) :
    exec i s = .next (respond .ok (.text (List.zipWith Bool.xor (text.take tlen) (ks.take klen))) s) :=
  (exec_eq_combineX s hi).trans (congrArg _ ((combineX_eq tlen klen text ks s ht hk).1 h))

theorem exec_combiner_of_length_ne (h : tlen ≠ klen) : exec i s = .next (raiseError .errLength s) :=
  (exec_eq_combineX s hi).trans (congrArg _ ((combineX_eq tlen klen text ks s ht hk).2 h))

end Combiner

/-- Settles O52, by the two outcomes of the length check. -/
theorem combineXorsItsOperands : Obligations.CombineXorsItsOperands := fun _ _ _ _ s _ ht hk =>
  ⟨exec_combiner_of_length_eq s (by simp) ht hk, exec_combiner_of_length_ne s (by simp) ht hk⟩

/-- Settles O53: the operation of COMBINE under two more opcodes. -/
theorem encryptAndDecryptXorTheirOperands : Obligations.EncryptAndDecryptXorTheirOperands :=
  fun _ _ _ _ s _ ht hk =>
  ⟨fun h => ⟨exec_combiner_of_length_eq s (by simp) ht hk h, exec_combiner_of_length_eq s (by simp) ht hk h⟩,
    fun h => ⟨exec_combiner_of_length_ne s (by simp) ht hk h, exec_combiner_of_length_ne s (by simp) ht hk h⟩⟩

/-- Settles O54: XORSEQ with the same keystream twice gives the text (43_combiner.md R144); the used bits of the
padded cipher text are the cipher text. -/
theorem decryptInvertsEncrypt : Obligations.DecryptInvertsEncrypt := by
  intro n text ks pad s _ ht hk
  have htake : (text.take n).length = n := List.length_take_of_le ht
  have hktake : (ks.take n).length = n := List.length_take_of_le hk
  have hok := xorSeq_of_length_eq (htake.trans hktake.symm)
  obtain ⟨hlen, hinv, -⟩ := combiningTwiceGivesTheText _ _ _ hok
  have hpad := hinv
  rw [← List.take_left' (l₂ := pad) (hlen.trans htake)] at hpad
  exact ⟨_, _, _, exec_combiner_of_xorSeq s (by simp) hok, rfl, exec_combiner_of_xorSeq _ (by simp) hpad, rfl⟩

/-! ### SNAP (R160) -/

theorem natOfBits_append (a b : BitSeq) : natOfBits (a ++ b) = natOfBits a + 2 ^ a.length * natOfBits b := by
  induction a with
  | nil => simp [natOfBits]
  | cons x a ih =>
    rw [List.cons_append, natOfBits, natOfBits, ih, List.length_cons, Nat.pow_succ]
    ring

theorem natOfBits_zeros (n : Nat) : natOfBits (zeros n) = 0 := by
  induction n with
  | zero => rfl
  | succ n ih => rw [zeros, List.replicate_succ, natOfBits, ← zeros, ih]; rfl

/-- The storage of a register is its value, zero-extended. -/
theorem natOfBits_storage (P : Params) (r : BitSeq) : natOfBits (storage P r) = natOfBits r := by
  rw [storage, natOfBits_append, natOfBits_zeros, Nat.mul_zero, Nat.add_zero]

section Fields

variable {w : Nat} {a : BitSeq} (b : BitSeq) (ha : a.length = w)
include ha

theorem natOfBits_append_mod : natOfBits (a ++ b) % 2 ^ w = natOfBits a := by
  subst ha
  rw [natOfBits_append, Nat.add_mul_mod_self_left, Nat.mod_eq_of_lt (natOfBits_lt a)]

theorem natOfBits_append_div : natOfBits (a ++ b) / 2 ^ w = natOfBits b := by
  subst ha
  rw [natOfBits_append, Nat.add_mul_div_left _ _ (Nat.two_pow_pos _), Nat.div_eq_of_lt (natOfBits_lt a),
    Nat.zero_add]

end Fields

/-- Settles O56: every register's storage has LMAX bits in a state of the invariant, so `rsp_snap` is cut into
them. -/
theorem snapReturnsTheRegisters : Obligations.SnapReturnsTheRegisters := by
  refine fun s _ => ⟨rfl, fun ⟨_, hi, _⟩ => ?_⟩
  obtain ⟨m1, m2, -⟩ := lens_le_lmax hi
  obtain ⟨-, ⟨l1, l2, -⟩, -⟩ := hi
  have h1 := storage_length (l1.trans_le m1)
  have h2 := storage_length (l2.trans_le m2)
  simp only [Response.snapOut, List.append_assoc]
  refine ⟨?_, ?_, ?_⟩
  · rw [natOfBits_append_mod _ h1, natOfBits_storage]
  · rw [natOfBits_append_div _ h1, natOfBits_append_mod _ h2, natOfBits_storage]
  · rw [Nat.two_mul, Nat.pow_add, ← Nat.div_div_eq_div_mul, natOfBits_append_div _ h1,
      natOfBits_append_div _ h2, natOfBits_storage]

/-! ### Command against idle phase (R162) -/

/-- The command is answered with the status the table of R162 lists, in the phase it lists. -/
def AnswersAsListed (i : Instr) (s : State) : Prop :=
  ∃ pl t, exec i s = .next (respond (summaryStatus s.params s.arch.phase i) pl t) ∧
    t.arch.phase = summaryPhase s.params s.arch.phase i

section Listed

variable {i : Instr} {s : State}

theorem answersAsListed_of_ok {pl : Payload} {t : State} (hst : summaryStatus s.params s.arch.phase i = .ok)
    (hexec : exec i s = .next (respond .ok pl t)) (hph : t.arch.phase = summaryPhase s.params s.arch.phase i) :
    AnswersAsListed i s :=
  ⟨pl, t, by rw [hst, hexec], hph⟩

/-- Every error of the table leaves the phase as it is. -/
theorem answersAsListed_of_error {st : Status} (hst : summaryStatus s.params s.arch.phase i = st) (hne : st ≠ .ok)
    (hexec : exec i s = .next (raiseError st s)) : AnswersAsListed i s :=
  ⟨.none, s, by rw [hst, hexec]; rfl, (if_neg (hst.trans_ne hne)).symm⟩

theorem init_answersAsListed (c : Cfg) : AnswersAsListed (.init c) s := by
  by_cases hc : wfCfg s.params c = true
  · have hst : summaryStatus s.params s.arch.phase (.init c) = .ok := if_pos hc
    exact answersAsListed_of_ok hst (exec_init_of_wf hc) (if_pos hst).symm
  · exact answersAsListed_of_error (if_neg hc) (by decide) (exec_init_of_not_wf (Bool.eq_false_iff.2 hc))

theorem start_answersAsListed {key frame : BitSeq} (hb : busy s.arch = false)
    (hw : Instr.wf s.params (.start key frame) = true) : AnswersAsListed (.start key frame) s := by
  obtain ⟨hk, hf⟩ : key.length = s.params.keyLen ∧ frame.length = s.params.frameLen := by
    simpa [Instr.wf] using hw
  by_cases hp : s.arch.phase = .unloaded
  · have hst : summaryStatus s.params s.arch.phase (.start key frame) = .ok := by simp [summaryStatus, hp, hk, hf]
    exact answersAsListed_of_ok hst (exec_start_of_unloaded hp ((busy_eq_false_iff _).1 hb).2 hk hf)
      (if_pos hst).symm
  · exact answersAsListed_of_error (if_neg hp) (by decide) (exec_start_badPhase key frame hp)

theorem next_answersAsListed : AnswersAsListed .next s := by
  by_cases hp : s.arch.phase = .ready ∨ s.arch.phase = .running
  · have hst : summaryStatus s.params s.arch.phase .next = .ok := if_pos hp
    exact answersAsListed_of_ok hst (exec_next_of_producing hp) (if_pos hst).symm
  · exact answersAsListed_of_error (if_neg hp) (by decide) (exec_next_badPhase hp)

theorem nextn_answersAsListed (n : Nat) (hb : busy s.arch = false) : AnswersAsListed (.nextn n) s := by
  by_cases hp : s.arch.phase = .ready ∨ s.arch.phase = .running
  · have hst : summaryStatus s.params s.arch.phase (.nextn n) = .ok := if_pos hp
    exact answersAsListed_of_ok hst (exec_nextn_of_producing n hb hp) (if_pos hst).symm
  · exact answersAsListed_of_error (if_neg hp) (by decide) (exec_nextn_badPhase n hp)

/-- The length fields of operands that fit their ports stay within the data (00_scope.md R6). -/
theorem lengths_le_of_fitsX {P : Params} {tlen klen : Nat} {text ks : BitSeq}
    (h : fitsX P tlen klen text ks = true) : tlen ≤ text.length ∧ klen ≤ ks.length := by
  simp only [fitsX, Bool.and_eq_true, decide_eq_true_eq] at h
  obtain ⟨⟨⟨htlen, hklen⟩, htext⟩, hks⟩ := h
  rw [htext, hks]
  exact ⟨Nat.le_sub_one_of_lt htlen, Nat.le_sub_one_of_lt hklen⟩

theorem combiner_answersAsListed {tlen klen : Nat} {text ks : BitSeq}
    (hi : i ∈ [Instr.combine tlen klen text ks, .encrypt tlen klen text ks, .decrypt tlen klen text ks])
    (hw : fitsX s.params tlen klen text ks = true) : AnswersAsListed i s := by
  obtain ⟨ht, hk⟩ := lengths_le_of_fitsX hw
  have hst : summaryStatus s.params s.arch.phase i = if tlen = klen then .ok else .errLength := by
    simp only [List.mem_cons, List.not_mem_nil, or_false] at hi
    obtain rfl | rfl | rfl := hi <;> rfl
  have hph : summaryPhase s.params s.arch.phase i = s.arch.phase := by
    simp only [List.mem_cons, List.not_mem_nil, or_false] at hi
    obtain rfl | rfl | rfl := hi <;> exact ite_self _
  by_cases h : tlen = klen
  · exact answersAsListed_of_ok (hst.trans (if_pos h)) (exec_combiner_of_length_eq s hi ht hk h) hph.symm
  · exact answersAsListed_of_error (hst.trans (if_neg h)) (by decide) (exec_combiner_of_length_ne s hi ht hk h)

theorem command_answersAsListed (hb : busy s.arch = false) (hw : i.wf s.params = true) : AnswersAsListed i s := by
  cases i
  case status => exact answersAsListed_of_ok rfl rfl rfl
  case init c => exact init_answersAsListed c
  case start key frame => exact start_answersAsListed hb hw
  case next => exact next_answersAsListed
  case nextn n => exact nextn_answersAsListed n hb
  case combine tlen klen text ks => exact combiner_answersAsListed (.head _) hw
  case encrypt tlen klen text ks => exact combiner_answersAsListed (.tail _ (.head _)) hw
  case decrypt tlen klen text ks => exact combiner_answersAsListed (.tail _ (.tail _ (.head _))) hw
  case snap => exact answersAsListed_of_ok rfl rfl rfl
  all_goals exact answersAsListed_of_error (st := .errOpcode) rfl (by decide) rfl

end Listed

/-- The codes an idle core's phase can have (30_encoding.md R68). -/
theorem phase_code_of_idle {S : CoreState} (hb : busy S = false) :
    S.phase = .unbuilt ∧ S.phase.code = 0#3 ∨ S.phase = .unloaded ∧ S.phase.code = 1#3 ∨
      S.phase = .ready ∧ S.phase.code = 5#3 ∨ S.phase = .running ∧ S.phase.code = 6#3 := by
  obtain ⟨h | h | h | h, -⟩ := (busy_eq_false_iff S).1 hb <;> simp [h, Phase.code]

/-- Settles O37: the table command by command; every command leaves an idle core, whose phases have the four
codes. -/
theorem commandAgainstPhaseTable : Obligations.CommandAgainstPhaseTable := by
  refine ⟨fun i s hidle hw => ?_, fun s => ?_⟩
  · obtain ⟨pl, u, hexec, hph⟩ := command_answersAsListed (not_busy_of_idle hidle) hw
    obtain ⟨t, r, hexec', -, -, ht, -⟩ := everyCommandIsAnswered i s hidle
    obtain rfl : respond _ pl u = t := by simpa using hexec.symm.trans hexec'
    refine ⟨_, _, hexec, rfl, rfl, hph, rfl, ?_, phase_code_of_idle (not_busy_of_idle ht), rfl⟩
    rw [Response.statusOut]
    cases summaryStatus s.params s.arch.phase i <;> rfl
  · rw [phaseOut]
    cases s.arch.phase <;> rfl

end Sys2Proof.Machine
end

section
/-! Proofs of the statements on errors (spec/60_exceptions.md): every error is the one response that writes
nothing, and the reserved opcodes are answered with it. -/

namespace Sys2Proof.Machine

open Sys2Proof

/-! ### Every error is precise (R186) -/

/-- Of the effects a command can have, only the one that writes nothing comes with an error. -/
theorem effect_of_error {P : Params} {S S' : CoreState} {i : Instr} {st : Status} {pl : Payload}
    (h : Effect P S i st pl S') (hst : st ≠ .ok) : S' = S ∧ pl = .none := by
  cases h with
  | nothing _ _ _ hpl => exact ⟨rfl, hpl hst⟩
  | construct | keySetup | oneBit | bits => exact absurd rfl hst

/-- A command answered with an error does what `raiseError` does and nothing else. -/
theorem exec_eq_raiseError {i : Instr} {s t : State} {r : Response} (hb : busy s.arch = false)
    (hexec : exec i s = .next t) (hrsp : t.rsp = some r) (herr : r.status ≠ .ok) : t = raiseError r.status s := by
  obtain ⟨st, pl, S, heff, hans⟩ := exec_effect s i hb
  obtain rfl : respond st pl { s with arch := S } = t := Host.Outcome.next.inj (hans.symm.trans hexec)
  obtain rfl : ⟨st, S.phase, pl⟩ = r := Option.some.inj hrsp
  obtain ⟨rfl, rfl⟩ := effect_of_error heff herr
  rfl

/-- Settles O38: the state after an error is `raiseError`'s, whose response has no payload to put on the ports. -/
theorem errorsArePrecise : Obligations.ErrorsArePrecise := by
  intro i s t r hidle hexec hrsp herr
  have ht := exec_eq_raiseError (not_busy_of_idle hidle) hexec hrsp herr
  have hr : r = ⟨r.status, s.arch.phase, .none⟩ := by
    rw [ht, raiseError_rsp] at hrsp
    exact (Option.some.inj hrsp).symm
  rw [hr, ht]
  exact ⟨rfl, rfl, rfl, rfl, rfl, rfl⟩

/-! ### The reserved opcodes (R184) -/

/-- Settles O57: each of the seven is `opcodeError`, the error response alone. -/
theorem reservedOpcodesAnswerAnError : Obligations.ReservedOpcodesAnswerAnError := by
  intro i hi s _
  have hexec : exec i s = .next (opcodeError s) := by
    simp only [List.mem_cons, List.not_mem_nil, or_false] at hi
    obtain rfl | rfl | rfl | rfl | rfl | rfl | rfl := hi <;> rfl
  exact hexec

end Sys2Proof.Machine
end

section
/-! Proofs of the statements on reset and hazards (spec/70_reset_and_hazards.md): hardware reset, the ticks a
busy core has left, commands that change nothing in the next one. -/

namespace Sys2Proof.Machine

open Sys2Proof

/-! ### Hardware reset (R200) -/

section Rst

variable {s : State} (h : rst s = true)
include h

theorem step_of_rst : step s = .next (hardReset s) := by rw [step, nextEvent_of_rst s h]

theorem cycle_of_rst : cycle s = hardReset s := by rw [cycle, nextEvent_of_rst s h]

theorem ksValid_of_rst : ksValid (emission s) = false := by
  rw [emission_of_rst s h]
  rfl

end Rst

theorem hardReset_eq {s : State} {x : Input} {rest : List Input} (hin : s.inputs = x :: rest) :
    hardReset s = { State.resetOf s.params with inputs := rest } := by
  rw [hardReset, hin, List.tail_cons]

theorem rspValid_hardReset (s : State) : rspValid (hardReset s) = false := by simp [rspValid]

/-- Settles O9: while `rst = 1` a step and a micro-step are `hardReset`, and the outputs are gated. -/
theorem hardwareResetFromAnyState : Obligations.HardwareResetFromAnyState := by
  intro s rest hin
  have h : rst s = true := by simp [hin]
  rw [step_of_rst h, cycle_of_rst h]
  exact ⟨congrArg _ (hardReset_eq hin), hardReset_eq hin, cmdReady_of_rst s h, rspValid_of_rst s h,
    ksValid_of_rst h, emission_of_rst s h, rspValid_hardReset s⟩

/-! ### Commands that only answer (R218) -/

/-- A diagnostic or combiner command is its response alone (44_host_commands.md R155 to R157, R159, R160). -/
theorem exec_diagnostic_responds {d : Instr} (s : State)
    (hd : d = .status ∨ d = .snap ∨ ∃ tlen klen text ks,
      d = .combine tlen klen text ks ∨ d = .encrypt tlen klen text ks ∨ d = .decrypt tlen klen text ks) :
    ∃ st pl, exec d s = .next (respond st pl s) := by
  obtain rfl | rfl | ⟨tlen, klen, text, ks, hd⟩ := hd
  case inl => exact ⟨_, _, rfl⟩
  case inr.inl => exact ⟨_, _, rfl⟩
  case inr.inr =>
    obtain ⟨st, pl, -, h⟩ := combineX_effect s tlen klen text ks
    exact ⟨st, pl, by rw [exec_eq_combineX s (by simpa using hd), h]⟩

/-- Settles O58: a response leaves the parameters and the core state, and the next command reads nothing else. -/
theorem diagnosticsChangeNothing : Obligations.DiagnosticsChangeNothing := by
  intro d i s u t t' _ hd hu ht ht'
  obtain ⟨st, pl, hresp⟩ := exec_diagnostic_responds s hd
  obtain rfl : respond st pl s = u := Host.Outcome.next.inj (hresp.symm.trans hu)
  obtain rfl := Host.Outcome.next.inj
    ((exec_of_sameCore (respond_params s st pl) (respond_arch s st pl) ht).symm.trans ht')
  exact ⟨rfl, rfl, rfl⟩

/-! ### Edges at which nothing is presented -/

/-- Only the inputs themselves tell quiet edges from none at all. -/
theorem nextEvent_of_quiet {s : State} (hq : ∀ x ∈ s.inputs, x = .quiet) :
    nextEvent s = if busy s.arch then .tick else .wait := by
  rw [nextEvent]
  cases hin : s.inputs with
  | nil => rfl
  | cons x rest =>
    obtain rfl : x = .quiet := hq x (by simp [hin])
    rfl

theorem passEdge_inputs_of_quiet {s : State} (hq : ∀ x ∈ s.inputs, x = .quiet) :
    (passEdge s).inputs = s.inputs.tail := by
  cases hin : s.inputs with
  | nil => simp [passEdge, hin]
  | cons x rest =>
    obtain rfl : x = .quiet := hq x (by simp [hin])
    simp [passEdge, hin]

theorem cycle_of_quiet {s : State} (hq : ∀ x ∈ s.inputs, x = .quiet) :
    cycle s = if busy s.arch then advance (passEdge s) else passEdge s := by
  rw [cycle, nextEvent_of_quiet hq]
  cases busy s.arch <;> rfl

theorem cycle_inputs_of_quiet {s : State} (hq : ∀ x ∈ s.inputs, x = .quiet) :
    (cycle s).inputs = s.inputs.tail := by
  rw [cycle_of_quiet hq]
  split
  · rw [advance_inputs, passEdge_inputs_of_quiet hq]
  · exact passEdge_inputs_of_quiet hq

theorem cycle_withoutInputs {s : State} (hq : ∀ x ∈ s.inputs, x = .quiet) :
    cycle { s with inputs := [] } = { cycle s with inputs := [] } := by
  rw [cycle_of_quiet hq, cycle_of_quiet (s := { s with inputs := [] }) (by simp)]
  cases busy s.arch
  · rfl
  · exact advance_withInputs (passEdge s) []

/-- Quiet edges do to the core what no input does. -/
theorem cycles_withoutInputs (n : Nat) {s : State} (hq : ∀ x ∈ s.inputs, x = .quiet) :
    cycles n { s with inputs := [] } = { cycles n s with inputs := [] } := by
  induction n generalizing s with
  | zero => rfl
  | succ n ih =>
    have hq' : ∀ x ∈ (cycle s).inputs, x = .quiet := fun x hx =>
      hq x (List.mem_of_mem_tail (cycle_inputs_of_quiet hq ▸ hx))
    rw [cycles, cycles, cycle_withoutInputs hq, ih hq']

/-! ### A busy core becomes idle (R221) -/

theorem workLeft_le {P : Params} {S : CoreState} (hi : S.Inv P) :
    workLeft P S ≤ max (P.keyLen + P.frameLen + P.warmupN) (2 ^ P.nw - 1) := by
  obtain ⟨-, -, -, -, ⟨-, -, -, -, -, hnrem⟩, -⟩ := hi
  unfold workLeft
  cases S.phase
  case loadKey | loadFrame | warmup => exact le_max_of_le_left (by dsimp only; omega)
  all_goals exact le_max_of_le_right (Nat.le_sub_one_of_lt hnrem)

/-- The tick that leaves the core idle answers the command it ends (30_encoding.md R71). -/
theorem advance_answers {s : State} (howed : s.inFlight.isSome = true) (hidle : busy (advance s).arch = false) :
    (advance s).rsp ≠ none := by
  obtain ⟨f, hf⟩ := Option.isSome_iff_exists.1 howed
  rw [advance_arch] at hidle
  simp [advance, replyIfDone, hf, hidle]

section Completion

variable {s : State} (hi : s.Inv) (hin : s.inputs = [])
include hi hin

theorem cycles_idle_unattended : busy (cycles (workLeft s.params s.arch) s).arch = false := by
  obtain ⟨-, hcore, -⟩ := cycles_inv (workLeft s.params s.arch) hi
  rw [cycles_params] at hcore
  obtain ⟨-, hleft⟩ := cycles_unattended hi hin le_rfl
  refine Bool.eq_false_iff.2 fun hb => ?_
  have := (busy_iff_workLeft_pos hcore).1 hb
  omega

theorem cycles_answered_unattended (hb : busy s.arch = true) :
    (cycles (workLeft s.params s.arch) s).rsp ≠ none := by
  have ⟨_, hcore, _⟩ := hi
  have hidle := cycles_idle_unattended hi hin
  obtain ⟨k, hk⟩ := Nat.exists_eq_succ_of_ne_zero ((busy_iff_workLeft_pos hcore).1 hb).ne'
  have hlt : k < workLeft s.params s.arch := hk ▸ k.lt_succ_self
  have ⟨_, _, howes, _⟩ := cycles_inv k hi
  rw [hk, cycles_succ_unattended hi hin hlt] at hidle ⊢
  exact advance_answers (howes.trans (cycles_busy_unattended hi hin hlt)) hidle

end Completion

/-- Settles O28: quiet edges are like no input, and then each micro-step is one tick of the work left. -/
theorem busyCoreBecomesIdle : Obligations.BusyCoreBecomesIdle := by
  intro s hi hb hq
  have ⟨_, hcore, _⟩ := hi
  have hi' : State.Inv { s with inputs := [] } := hi
  have harch (k : Nat) : (cycles k s).arch = (cycles k { s with inputs := [] }).arch := by
    rw [cycles_withoutInputs k hq]
  have hrsp (k : Nat) : (cycles k s).rsp = (cycles k { s with inputs := [] }).rsp := by
    rw [cycles_withoutInputs k hq]
  simp only [harch, hrsp]
  refine ⟨(busy_iff_workLeft_pos hcore).1 hb, workLeft_le hcore, fun k hk => ?_, ?_,
    cycles_answered_unattended hi' rfl hb⟩
  · obtain ⟨-, hleft⟩ := cycles_unattended hi' rfl hk.le
    exact ⟨cycles_busy_unattended hi' rfl hk, Nat.eq_sub_of_add_eq hleft⟩
  · rw [idle_eq_not_busy, cycles_idle_unattended hi' rfl]
    rfl

end Sys2Proof.Machine
end
